-- ==== Sys2Proof/Word.lean ====
section
/-! DEFINITION. Words and addresses (spec/00_scope.md R7, spec/20_memory.md R40). A word, "a signed integer of unbounded
magnitude", is Lean's `Int`, and an address, "a natural number", is Lean's `Nat`: nothing is ever extended, truncated or
sliced in binary (00_scope.md R9), so no bit vector stands anywhere. Only a finite-width realization, which this hardware
is not, has a least and a greatest word; their values are presumed (notes/assumptions/6.md). -/

namespace Sys2Proof

/-- The least word of a realization with words of `bits` bits. -/
def leastWord (bits : Nat) : Int := -(2 ^ (bits - 1))

/-- The greatest word of a realization with words of `bits` bits. -/
def greatestWord (bits : Nat) : Int := 2 ^ (bits - 1) - 1

end Sys2Proof
end

