-- ==== Sys2Proof/Syntax.lean ====
section
/-! DEFINITION. The instructions as data: one constructor per row of spec/opcode_table.json (spec/30_encoding.md R66),
each carrying the addressing modes of its operand slots. The operand words are not part of an instruction: they are
whole memory words at `ip+1 .. ip+n`, fetched by the resolver (R60, R68; spec/40_pipeline.md R81; notes/assumptions/9.md). -/

namespace Sys2Proof

/-- The three addressing modes (30_encoding.md R64): digit 0, 1, 2. -/
inductive Mode where
  | position
  | immediate
  | relative
  deriving DecidableEq, Repr

/-- What a slot is used for (30_encoding.md R66): a value read, or a destination written. -/
inductive Intent where
  | read
  | write
  deriving DecidableEq, Repr

/-- The ten operations of the opcode map (30_encoding.md R66). -/
inductive Opcode where
  | add | mul | read | write | jnz | jz | lt | eq | arb | halt
  deriving DecidableEq, Repr

/-- An instruction: an opcode with the modes of its slots 0, 1, 2 in order (30_encoding.md R66, R73). -/
inductive Instr where
  | add (m0 m1 m2 : Mode)
  | mul (m0 m1 m2 : Mode)
  | read (m0 : Mode)
  | write (m0 : Mode)
  | jnz (m0 m1 : Mode)
  | jz (m0 m1 : Mode)
  | lt (m0 m1 m2 : Mode)
  | eq (m0 m1 m2 : Mode)
  | arb (m0 : Mode)
  | halt
  deriving DecidableEq, Repr

/-- Why a word is no instruction (30_encoding.md R64, R65, R67): its opcode (the whole word is named), or a mode
digit of a slot. -/
inductive DecodeError where
  | opcode (w : Int)
  | mode (slot digit : Nat)
  deriving DecidableEq, Repr

end Sys2Proof
end

