-- ==== Sys2Proof/Config.lean ====
section
/-! DEFINITION. The parameters of the block and this hardware's values (spec/00_scope.md R8). The shared operations take
them as an argument, so that an earlier revision (fewer opcodes or modes, R2) and a finite-width realization (R7) are
other values of the same model; this hardware is `Config.hw`. There is no free value: the spec leaves no result open. -/

namespace Sys2Proof

/-- The parameters of 00_scope.md R8 that a step depends on. `enabledOpcodes` is a subset of the ten opcodes and
`enabledModes` of the three modes by their types (D17). -/
structure Config where
  /-- `ADDR_MAX`: the largest address the memory unit accepts (R40, D3). -/
  addrMax : Nat
  /-- `WORD_BITS`: `none` is unbounded; `some n` a realization with words of `n` bits (R7, D2). -/
  wordBits : Option Nat
  /-- `ENABLED_OPCODES` (D17). -/
  enabledOpcodes : List Opcode
  /-- `ENABLED_MODES` (D17). -/
  enabledModes : List Mode
  deriving DecidableEq, Repr

/-- This hardware: the final revision (R2) with unbounded words (R7), all opcodes and modes (R8) and
`ADDR_MAX` = 2^64 - 1 (decision D3 of the spec). -/
def Config.hw : Config where
  addrMax := 2 ^ 64 - 1
  wordBits := none
  enabledOpcodes := [.add, .mul, .read, .write, .jnz, .jz, .lt, .eq, .arb, .halt]
  enabledModes := [.position, .immediate, .relative]

end Sys2Proof
end

