-- ==== Sys2Proof/WellFormed.lean ====
section
/-! DEFINITION. Well-formed instructions (spec/30_encoding.md R69): a Write slot admits Position and Relative only.
The decoder also yields the other ones ("Mode 1 in a W slot decodes without fault"); running one raises WRITE_MODE. -/

namespace Sys2Proof

/-- The modes a Write slot admits: 0 and 2 (R69). -/
def Mode.writable : Mode → Bool
  | .position => true
  | .immediate => false
  | .relative => true

/-- Every Write slot has a mode it admits: slot 2 of ADD, MUL, LT, EQ and slot 0 of READ (R69). -/
def Instr.wellFormed : Instr → Bool
  | .add _ _ m2 => m2.writable
  | .mul _ _ m2 => m2.writable
  | .read m0 => m0.writable
  | .write _ => true
  | .jnz _ _ => true
  | .jz _ _ => true
  | .lt _ _ m2 => m2.writable
  | .eq _ _ m2 => m2.writable
  | .arb _ => true
  | .halt => true

end Sys2Proof
end

