-- ==== Sys2Proof/Decode.lean ====
section
/-! DEFINITION. The instruction decoder and the encoder (spec/30_encoding.md): the opcode map, decimal field extraction,
the decode order, rejection by name, the canonical encoding, and the source's decimal-string form of the decoder. -/

namespace Sys2Proof

/-! ## The opcode map (R66) -/

/-- The opcode value `OP` of an operation (R66). -/
def Opcode.code : Opcode → Nat
  | .add => 1
  | .mul => 2
  | .read => 3
  | .write => 4
  | .jnz => 5
  | .jz => 6
  | .lt => 7
  | .eq => 8
  | .arb => 9
  | .halt => 99

/-- The operation with opcode value `n`; every value outside the map is unsupported (R66, R67). -/
def Opcode.ofCode? : Nat → Option Opcode
  | 1 => some .add
  | 2 => some .mul
  | 3 => some .read
  | 4 => some .write
  | 5 => some .jnz
  | 6 => some .jz
  | 7 => some .lt
  | 8 => some .eq
  | 9 => some .arb
  | 99 => some .halt
  | _ => none

/-- The intents of the operand slots 0, 1, .. of an operation (R66); their number is the operand count `n`. -/
def Opcode.intents : Opcode → List Intent
  | .add => [.read, .read, .write]
  | .mul => [.read, .read, .write]
  | .read => [.write]
  | .write => [.read]
  | .jnz => [.read, .read]
  | .jz => [.read, .read]
  | .lt => [.read, .read, .write]
  | .eq => [.read, .read, .write]
  | .arb => [.read]
  | .halt => []

/-- The operand count `n` (R66). -/
def Opcode.operandCount (op : Opcode) : Nat := op.intents.length

/-- The width in words, `1 + n`: a function of the opcode alone (R60, R71). -/
def Opcode.width (op : Opcode) : Nat := 1 + op.operandCount

/-- The operation of an instruction. -/
def Instr.opcode : Instr → Opcode
  | .add _ _ _ => .add
  | .mul _ _ _ => .mul
  | .read _ => .read
  | .write _ => .write
  | .jnz _ _ => .jnz
  | .jz _ _ => .jz
  | .lt _ _ _ => .lt
  | .eq _ _ _ => .eq
  | .arb _ => .arb
  | .halt => .halt

/-- The modes of an instruction's slots, in slot order. -/
def Instr.modes : Instr → List Mode
  | .add m0 m1 m2 => [m0, m1, m2]
  | .mul m0 m1 m2 => [m0, m1, m2]
  | .read m0 => [m0]
  | .write m0 => [m0]
  | .jnz m0 m1 => [m0, m1]
  | .jz m0 m1 => [m0, m1]
  | .lt m0 m1 m2 => [m0, m1, m2]
  | .eq m0 m1 m2 => [m0, m1, m2]
  | .arb m0 => [m0]
  | .halt => []

/-- The slots of an instruction in order: the intent of the opcode map with the instruction's own mode. -/
def Instr.slots (i : Instr) : List (Intent × Mode) := i.opcode.intents.zip i.modes

/-! ## Fields of the instruction word -/

/-- The mode a digit selects (R64); digits 3 to 9 select none. -/
def Mode.ofDigit? : Nat → Option Mode
  | 0 => some .position
  | 1 => some .immediate
  | 2 => some .relative
  | _ => none

/-- The digit of a mode (R64). -/
def Mode.digit : Mode → Nat
  | .position => 0
  | .immediate => 1
  | .relative => 2

/-- `OP = w mod 100` (R61). -/
def opcodeField (w : Nat) : Nat := w % 100

/-- `M_i = (w div 10^(i+2)) mod 10` (R62). -/
def modeDigit (w slot : Nat) : Nat := w / 10 ^ (slot + 2) % 10

/-! ## The decoder -/

/-- The mode of one slot: a digit outside the enabled modes is DECODE_MODE with the slot and the digit (R64). -/
def slotModeOn (c : Config) (w slot : Nat) : Except DecodeError Mode :=
  match Mode.ofDigit? (modeDigit w slot) with
  | some m => if m ∈ c.enabledModes then .ok m else .error (.mode slot (modeDigit w slot))
  | none => .error (.mode slot (modeDigit w slot))

/-- An instruction with three operand slots: their modes in ascending slot order, the first bad digit rejects (R73). -/
def threeSlotsOn (c : Config) (w : Nat) (mk : Mode → Mode → Mode → Instr) : Except DecodeError Instr := do
  let m0 ← slotModeOn c w 0
  let m1 ← slotModeOn c w 1
  let m2 ← slotModeOn c w 2
  return mk m0 m1 m2

/-- An instruction with two operand slots (R73). -/
def twoSlotsOn (c : Config) (w : Nat) (mk : Mode → Mode → Instr) : Except DecodeError Instr := do
  let m0 ← slotModeOn c w 0
  let m1 ← slotModeOn c w 1
  return mk m0 m1

/-- An instruction with one operand slot (R73). -/
def oneSlotOn (c : Config) (w : Nat) (mk : Mode → Instr) : Except DecodeError Instr := do
  let m0 ← slotModeOn c w 0
  return mk m0

/-- The modes of the opcode's own operands; the digits above them are never read (R63). -/
def decodeSlotsOn (c : Config) (w : Nat) : Opcode → Except DecodeError Instr
  | .add => threeSlotsOn c w .add
  | .mul => threeSlotsOn c w .mul
  | .read => oneSlotOn c w .read
  | .write => oneSlotOn c w .write
  | .jnz => twoSlotsOn c w .jnz
  | .jz => twoSlotsOn c w .jz
  | .lt => threeSlotsOn c w .lt
  | .eq => threeSlotsOn c w .eq
  | .arb => oneSlotOn c w .arb
  | .halt => .ok .halt

/-- Decoding in the order of R73: a negative word is rejected (R65), then an unsupported or disabled opcode
(R66, R67), then the first bad mode digit (R64). -/
def decodeOn (c : Config) (w : Int) : Except DecodeError Instr :=
  if w < 0 then .error (.opcode w)
  else
    match Opcode.ofCode? (opcodeField w.toNat) with
    | none => .error (.opcode w)
    | some op => if op ∈ c.enabledOpcodes then decodeSlotsOn c w.toNat op else .error (.opcode w)

/-- The decoder of this hardware. -/
def decode (w : Int) : Except DecodeError Instr := decodeOn Config.hw w

/-- The decoder on a word as the host's opcode table numbers it. One memory word of this machine is one unbounded
integer, so the table's bits are the instruction word's binary numeral, whole, and the operand words do not take part in
decoding (R71, notes/assumptions/8.md). -/
def decodeTableWord (_nbits w : Nat) : Option Instr :=
  match decode (w : Int) with
  | .ok i => some i
  | .error _ => none

/-! ## The encoder -/

/-- The canonical instruction word, `OP + 100·M0 + 1000·M1 + 10000·M2` with absent slots 0 (R74). -/
def encodeNat : Instr → Nat
  | .add m0 m1 m2 => 1 + 100 * m0.digit + 1000 * m1.digit + 10000 * m2.digit
  | .mul m0 m1 m2 => 2 + 100 * m0.digit + 1000 * m1.digit + 10000 * m2.digit
  | .read m0 => 3 + 100 * m0.digit
  | .write m0 => 4 + 100 * m0.digit
  | .jnz m0 m1 => 5 + 100 * m0.digit + 1000 * m1.digit
  | .jz m0 m1 => 6 + 100 * m0.digit + 1000 * m1.digit
  | .lt m0 m1 m2 => 7 + 100 * m0.digit + 1000 * m1.digit + 10000 * m2.digit
  | .eq m0 m1 m2 => 8 + 100 * m0.digit + 1000 * m1.digit + 10000 * m2.digit
  | .arb m0 => 9 + 100 * m0.digit
  | .halt => 99

/-- The canonical instruction word of an instruction (R74). -/
def encode (i : Instr) : Int := (encodeNat i : Int)

/-- The words of an instruction with its operand words, the instruction word first (R60). -/
def encodeWords (i : Instr) (operands : List Int) : List Int := encode i :: operands

/-! ## Pseudo-instructions (R78) -/

/-- An operand as the spec's text form has it: a mode and an operand word (R77). -/
structure Operand where
  mode : Mode
  word : Int
  deriving DecidableEq, Repr

/-- `JMP t` expands to `JNZ #1, t` (R78). -/
def jmpWords (t : Operand) : List Int := encodeWords (.jnz .immediate t.mode) [1, t.word]

/-- `MOV s, d` expands to `ADD s, #0, d` (R78). -/
def movWords (s d : Operand) : List Int := encodeWords (.add s.mode .immediate d.mode) [s.word, 0, d.word]

/-! ## The string form of the decoder (R61, R62, R76) -/

/-- The decimal digits of a word, most significant first, "left-zero-pad[ded] to at least 2 digits" (R61). -/
def decimalString (w : Nat) : List Nat :=
  let ds := (Nat.digits 10 w).reverse
  List.replicate (2 - ds.length) 0 ++ ds

/-- The value of a digit string, most significant digit first. -/
def stringValue (ds : List Nat) : Nat := ds.foldl (fun v d => 10 * v + d) 0

/-- "the opcode is the integer value of the full instruction for 1–2 digit instructions, else the last two digits"
(R61). -/
def stringOpcode (w : Nat) : Nat :=
  let ds := decimalString w
  if ds.length ≤ 2 then w else stringValue (ds.drop (ds.length - 2))

/-- "for operand index `i` (0-based), locate the digit at position `len - 3 - i` from the padded string (counting from
the left); if that position does not exist, the mode is Position" (R62): digit 0 is Position. -/
def stringModeDigit (w slot : Nat) : Nat :=
  let ds := decimalString w
  if slot + 3 ≤ ds.length then ds.getD (ds.length - 3 - slot) 0 else 0

end Sys2Proof
end

