-- ==== Sys2Proof/Machine/State.lean ====
section
/-! DEFINITION. The state of one instance (spec/10_state.md R20), the status register, the fault record, the memory's
data form, the reasons a step can stop, and the state after reset (R32). -/

namespace Sys2Proof.Machine

/-- The status register (10_state.md R24). -/
inductive Status where
  | running
  | suspendedForInput
  | halted
  | faulted
  deriving DecidableEq, Repr

/-- Access kinds of an address fault (60_exceptions.md R150). -/
inductive AccessKind where
  | fetch
  | operandWord
  | effectiveRead
  | effectiveWrite
  | jumpTarget
  deriving DecidableEq, Repr

/-- The cause of a fault together with the information the record holds for it (60_exceptions.md R150). Each is the
spec's own terminal fault, entered as a next state (40_pipeline.md R94); none is a stop of the model. -/
inductive Cause where
  /-- DECODE_OPCODE: the instruction word (R151). -/
  | decodeOpcode (w : Int)
  /-- DECODE_MODE: the slot and the digit (R152). -/
  | decodeMode (slot digit : Nat)
  /-- WRITE_MODE: the slot (R153). -/
  | writeMode (slot : Nat)
  /-- NEGATIVE_ADDRESS: the access kind and the address (R154). -/
  | negativeAddress (kind : AccessKind) (value : Int)
  /-- ADDRESS_RANGE: the access kind and the address (R155). -/
  | addressRange (kind : AccessKind) (value : Int)
  /-- OVERFLOW: the operation and the exact result; only a finite-width realization raises it (R156). -/
  | overflow (op : Opcode) (result : Int)
  deriving DecidableEq, Repr

/-- The fault record `(cause, fault_ip, info)` (10_state.md R25); `cause` and `info` are one datum, since the info's
shape is the cause's (notes/assumptions/5.md). -/
structure FaultRecord where
  cause : Cause
  faultIp : Nat
  deriving DecidableEq, Repr

/-- Memory as data: (address, word) pairs in the canonical form `Memory.wf`; an unlisted address reads 0
(20_memory.md R41, R42; notes/assumptions/2.md). -/
abbrev Memory := List (Nat × Int)

/-- The state of one instance (10_state.md R20). -/
structure State where
  /-- The memory (20_memory.md R40). -/
  mem : Memory
  /-- The instruction pointer (10_state.md R22). -/
  ip : Nat
  /-- The relative base (10_state.md R23). -/
  rb : Int
  /-- The status register (10_state.md R24). -/
  status : Status
  /-- The fault record (10_state.md R25). -/
  fault : Option FaultRecord
  /-- The input queue `in`, front first (10_state.md R26). -/
  input : List Int
  /-- The output queue `out`, the most recent last (10_state.md R27). -/
  output : List Int
  deriving DecidableEq, Repr

/-- The reasons a step could end in the host's outcome `fault`: none. Every fault the spec names has an entry the spec
describes (40_pipeline.md R94), so it is a next state with status Faulted. -/
inductive Fault : Type
  deriving DecidableEq, Repr

/-- The reasons a step could end in the host's outcome `refused`. -/
inductive Refusal where
  /-- Raised only by an arm of `exec` that has no meaning yet, and no arm is such a one (safe: it would stop the run). -/
  | notModelled (mnemonic : String)
  deriving DecidableEq, Repr

/-- The result of a meaning or of a step. -/
abbrev Result := Host.Outcome State Fault Refusal

/-- The machine right after reset (10_state.md R32, 70_reset_and_hazards.md R180), constructed with the empty image and
no initial input (notes/assumptions/3.md). -/
def State.reset : State where
  mem := []
  ip := 0
  rb := 0
  status := .running
  fault := none
  input := []
  output := []

end Sys2Proof.Machine
end

