-- ==== Sys2Proof/Machine/Ops.lean ====
section
/-! DEFINITION. The named operations over memory, registers, queues and status: MemRead and MemWrite
(spec/20_memory.md R42, R43), the state updates of 00_scope.md R10, the fault transition (spec/40_pipeline.md R94), and
the codes of status, causes and kinds (spec/10_state.md R24, spec/60_exceptions.md R150). -/

namespace Sys2Proof.Machine

/-! ## Memory -/

/-- The word an unlisted address reads as: 0 (20_memory.md R41). -/
def Memory.blankWord : Int := 0

/-- MemRead: the listed word, else 0 (20_memory.md R42). -/
def Memory.read : Memory → Nat → Int
  | [], _ => Memory.blankWord
  | (k, v) :: rest, a => if k = a then v else Memory.read rest a

/-- Puts a cell before the first cell of a larger address. -/
def Memory.insertCell (a : Nat) (v : Int) : Memory → Memory
  | [] => [(a, v)]
  | (k, x) :: rest => if a < k then (a, v) :: (k, x) :: rest else (k, x) :: Memory.insertCell a v rest

/-- MemWrite: the cell of `a` is replaced, and left out when it would hold what an unlisted address reads as
(20_memory.md R43). -/
def Memory.write (m : Memory) (a : Nat) (v : Int) : Memory :=
  if v = Memory.blankWord then m.filter (fun cell => cell.1 ≠ a)
  else Memory.insertCell a v (m.filter (fun cell => cell.1 ≠ a))

/-- The canonical form: addresses strictly rising, no cell that holds what an unlisted address reads as. -/
def Memory.wf : Memory → Bool
  | [] => true
  | [(_, v)] => decide (v ≠ Memory.blankWord)
  | (a, v) :: (b, w) :: rest => decide (v ≠ Memory.blankWord ∧ a < b) && Memory.wf ((b, w) :: rest)

/-- The memory with the words of a list at `a, a+1, ..`, zero elsewhere above: the initial image (20_memory.md R41). -/
def Memory.ofImage : List Int → Nat → Memory
  | [], _ => []
  | v :: rest, a =>
    if v = Memory.blankWord then Memory.ofImage rest (a + 1) else (a, v) :: Memory.ofImage rest (a + 1)

/-! ## Updates of one state component -/

/-- `MemWrite(a, v)` on the state (00_scope.md R11). -/
def State.memWrite (s : State) (a : Nat) (v : Int) : State := { s with mem := s.mem.write a v }

/-- `ip <- target` (00_scope.md R10). -/
def State.setIp (s : State) (target : Nat) : State := { s with ip := target }

/-- `ip <- ip + n` (40_pipeline.md R93). -/
def State.advanceIp (s : State) (n : Nat) : State := { s with ip := s.ip + n }

/-- `rb <- v` (10_state.md R23). -/
def State.setRb (s : State) (v : Int) : State := { s with rb := v }

/-- `status <- v` (10_state.md R24). -/
def State.setStatus (s : State) (v : Status) : State := { s with status := v }

/-- The input queue left after `in.pop()` (10_state.md R26). -/
def State.setInput (s : State) (ws : List Int) : State := { s with input := ws }

/-- `out.push(v)` (10_state.md R27). -/
def State.pushOutput (s : State) (v : Int) : State := { s with output := s.output ++ [v] }

/-! ## Faults -/

/-- The fault transition (40_pipeline.md R94, 60_exceptions.md R159): status and fault record are written, nothing
else; `ip` still addresses the faulting instruction. -/
def State.enterFault (s : State) (f : Cause) : State :=
  { s with status := .faulted, fault := some { cause := f, faultIp := s.ip } }

/-- Ends an instruction: its effect is committed whole, or, if a fault was raised, the fault transition is taken from
the state the instruction started in (40_pipeline.md R94). -/
def commit (s : State) : Except Cause State → Result
  | .ok t => .next t
  | .error f => .next (s.enterFault f)

/-- The fault a decode error raises (60_exceptions.md R151, R152). -/
def causeOfDecode : DecodeError → Cause
  | .opcode w => .decodeOpcode w
  | .mode slot digit => .decodeMode slot digit

/-! ## Codes -/

/-- The code of a status (10_state.md R24). -/
def Status.code : Status → Nat
  | .running => 0
  | .suspendedForInput => 1
  | .halted => 2
  | .faulted => 3

/-- The code of an access kind (60_exceptions.md R150). -/
def AccessKind.code : AccessKind → Nat
  | .fetch => 0
  | .operandWord => 1
  | .effectiveRead => 2
  | .effectiveWrite => 3
  | .jumpTarget => 4

/-- The code of a cause (60_exceptions.md R150). -/
def Cause.code : Cause → Nat
  | .decodeOpcode _ => 1
  | .decodeMode _ _ => 2
  | .writeMode _ => 3
  | .negativeAddress _ _ => 4
  | .addressRange _ _ => 5
  | .overflow _ _ => 6

/-- The cause code the host reads: 0 NONE when no fault is recorded (60_exceptions.md R150). -/
def State.causeCode (s : State) : Nat :=
  match s.fault with
  | none => 0
  | some r => r.cause.code

end Sys2Proof.Machine
end

