-- ==== Sys2Proof/Machine/Flags.lean ====
section
/-! DEFINITION. Result computations. The core has no flags and no condition codes (spec/10_state.md R28): a comparison's
result is a word, a jump tests an operand value, and the only check on a result is the word range of a finite-width
realization (spec/60_exceptions.md R156). -/

namespace Sys2Proof.Machine

/-- The word a comparison writes: 1 or 0 (44_compare.md R130, R131). -/
def truthWord (b : Bool) : Int := if b then 1 else 0

/-- Whether a word of the configured width can hold a value; unbounded words hold every integer (00_scope.md R7).
The range of a finite width is two's complement's (notes/assumptions/6.md). -/
def fitsOn (c : Config) (v : Int) : Bool :=
  match c.wordBits with
  | none => true
  | some bits => decide (leastWord bits ≤ v ∧ v ≤ greatestWord bits)

/-- The result of ADD, MUL or ARB: a finite-width realization raises OVERFLOW before the result is written, and never
wraps (41_arithmetic.md R103, 60_exceptions.md R156). -/
def exactResultOn (c : Config) (op : Opcode) (v : Int) : Except Cause Int :=
  if fitsOn c v then .ok v else .error (.overflow op v)

end Sys2Proof.Machine
end

