-- ==== Sys2Proof/Machine/Operands.lean ====
section
/-! DEFINITION. The operand resolver (spec/40_pipeline.md R85 to R92): operand-word fetch, effective address, address
checks, and the three modes with the two intents. -/

namespace Sys2Proof.Machine

/-- Fetches `opw[i]` from `ip + 1 + i`; an address above ADDR_MAX is ADDRESS_RANGE (OPERAND_WORD) (R91 (1)). -/
def operandWordOn (c : Config) (s : State) (slot : Nat) : Except Cause Int :=
  if s.ip + 1 + slot ≤ c.addrMax then .ok (s.mem.read (s.ip + 1 + slot))
  else .error (.addressRange .operandWord ((s.ip + 1 + slot : Nat) : Int))

/-- The checks of an effective address: below zero, then above ADDR_MAX (R91 (2)). -/
def checkedAddressOn (c : Config) (kind : AccessKind) (ea : Int) : Except Cause Nat :=
  if ea < 0 then .error (.negativeAddress kind ea)
  else if (c.addrMax : Int) < ea then .error (.addressRange kind ea)
  else .ok ea.toNat

/-- Intent Read: Position and Relative dereference the effective address, Immediate is the operand word itself
(R85, R87, R89). -/
def resolveReadOn (c : Config) (s : State) (slot : Nat) (m : Mode) : Except Cause Int := do
  let w ← operandWordOn c s slot
  match m with
  | .immediate => return w
  | .position => do
    let a ← checkedAddressOn c .effectiveRead w
    return s.mem.read a
  | .relative => do
    let a ← checkedAddressOn c .effectiveRead (s.rb + w)
    return s.mem.read a

/-- Intent Write: Position and Relative give the effective address without reading it, Immediate is WRITE_MODE, raised
after the operand word is fetched (R86, R88, R90). -/
def resolveWriteOn (c : Config) (s : State) (slot : Nat) (m : Mode) : Except Cause Nat := do
  let w ← operandWordOn c s slot
  match m with
  | .immediate => .error (.writeMode slot)
  | .position => checkedAddressOn c .effectiveWrite w
  | .relative => checkedAddressOn c .effectiveWrite (s.rb + w)

end Sys2Proof.Machine
end

