-- ==== Sys2Proof/Machine/Arithmetic.lean ====
section
/-! DEFINITION. The three-operand form (format F4) and the arithmetic instructions ADD and MUL (spec/41_arithmetic.md
R100 to R103). Every `…On` definition takes the block's parameters; the meaning of this hardware is the one at
`Config.hw`. -/

namespace Sys2Proof.Machine

/-- An instruction of format F4: slots 0 and 1 are read, slot 2 is the destination; all three are resolved in slot order,
then the result is written and `ip` advances by 4 (40_pipeline.md R92, R93). -/
def threeOperandOn (c : Config) (result : Int → Int → Except Cause Int) (m0 m1 m2 : Mode) (s : State) : Result :=
  commit s do
    let a ← resolveReadOn c s 0 m0
    let b ← resolveReadOn c s 1 m1
    let d ← resolveWriteOn c s 2 m2
    let v ← result a b
    return (s.memWrite d v).advanceIp 4

/-- ADD (R100): the exact sum (R103). -/
def addOn (c : Config) (m0 m1 m2 : Mode) (s : State) : Result :=
  threeOperandOn c (fun a b => exactResultOn c .add (a + b)) m0 m1 m2 s

/-- MUL (R101): the exact product (R103). -/
def mulOn (c : Config) (m0 m1 m2 : Mode) (s : State) : Result :=
  threeOperandOn c (fun a b => exactResultOn c .mul (a * b)) m0 m1 m2 s

/-- The meaning of ADD (R100). -/
def execAdd (m0 m1 m2 : Mode) (s : State) : Result := addOn Config.hw m0 m1 m2 s

/-- The meaning of MUL (R101). -/
def execMul (m0 m1 m2 : Mode) (s : State) : Result := mulOn Config.hw m0 m1 m2 s

end Sys2Proof.Machine
end

