-- ==== Sys2Proof/Machine/Compare.lean ====
section
/-! DEFINITION. The comparison instructions LT and EQ (spec/44_compare.md R130, R131). -/

namespace Sys2Proof.Machine

/-- LT (R130): 1 if a < b, signed and exact, else 0. -/
def ltOn (c : Config) (m0 m1 m2 : Mode) (s : State) : Result :=
  threeOperandOn c (fun a b => .ok (truthWord (decide (a < b)))) m0 m1 m2 s

/-- EQ (R131): 1 if a = b, else 0. -/
def eqOn (c : Config) (m0 m1 m2 : Mode) (s : State) : Result :=
  threeOperandOn c (fun a b => .ok (truthWord (decide (a = b)))) m0 m1 m2 s

/-- The meaning of LT (R130). -/
def execLt (m0 m1 m2 : Mode) (s : State) : Result := ltOn Config.hw m0 m1 m2 s

/-- The meaning of EQ (R131). -/
def execEq (m0 m1 m2 : Mode) (s : State) : Result := eqOn Config.hw m0 m1 m2 s

end Sys2Proof.Machine
end

