-- ==== Sys2Proof/Machine/Control.lean ====
section
/-! DEFINITION. The control-transfer instructions JNZ and JZ (spec/43_control.md R120 to R122). -/

namespace Sys2Proof.Machine

/-- A taken jump: a negative target is NEGATIVE_ADDRESS (JUMP_TARGET); a target above ADDR_MAX is left to the next fetch
(R122). -/
def jumpTo (s : State) (target : Int) : Except Cause State :=
  if target < 0 then .error (.negativeAddress .jumpTarget target) else .ok (s.setIp target.toNat)

/-- A conditional jump: both slots are resolved whether or not it is taken; not taken, `ip` advances by 3 (R120). -/
def jumpIfOn (c : Config) (taken : Int → Bool) (m0 m1 : Mode) (s : State) : Result :=
  commit s do
    let a ← resolveReadOn c s 0 m0
    let b ← resolveReadOn c s 1 m1
    if taken a then jumpTo s b else return s.advanceIp 3

/-- JNZ (R120): taken when a is not zero. -/
def jnzOn (c : Config) (m0 m1 : Mode) (s : State) : Result := jumpIfOn c (fun a => decide (a ≠ 0)) m0 m1 s

/-- JZ (R121): taken when a is zero. -/
def jzOn (c : Config) (m0 m1 : Mode) (s : State) : Result := jumpIfOn c (fun a => decide (a = 0)) m0 m1 s

/-- The meaning of JNZ (R120). -/
def execJnz (m0 m1 : Mode) (s : State) : Result := jnzOn Config.hw m0 m1 s

/-- The meaning of JZ (R121). -/
def execJz (m0 m1 : Mode) (s : State) : Result := jzOn Config.hw m0 m1 s

end Sys2Proof.Machine
end

