-- ==== Sys2Proof/Machine/InputOutput.lean ====
section
/-! DEFINITION. The input and output instructions READ and WRITE (spec/42_io.md R110 to R112). -/

namespace Sys2Proof.Machine

/-- READ (R110): the destination is resolved first; an empty input queue suspends the machine with `ip`, memory and `rb`
unchanged, else the front value is popped and written and `ip` advances by 2. -/
def readOn (c : Config) (m0 : Mode) (s : State) : Result :=
  commit s do
    let d ← resolveWriteOn c s 0 m0
    match s.input with
    | [] => return s.setStatus .suspendedForInput
    | v :: rest => return ((s.setInput rest).memWrite d v).advanceIp 2

/-- WRITE (R111): the value is appended to the output queue. -/
def writeOn (c : Config) (m0 : Mode) (s : State) : Result :=
  commit s do
    let a ← resolveReadOn c s 0 m0
    return (s.pushOutput a).advanceIp 2

/-- The meaning of READ (R110). -/
def execRead (m0 : Mode) (s : State) : Result := readOn Config.hw m0 s

/-- The meaning of WRITE (R111). -/
def execWrite (m0 : Mode) (s : State) : Result := writeOn Config.hw m0 s

end Sys2Proof.Machine
end

