-- ==== Sys2Proof/Machine/System.lean ====
section
/-! DEFINITION. The register and system instructions ARB and HALT (spec/45_system.md R140, R141). -/

namespace Sys2Proof.Machine

/-- ARB (R140): the value is added to the relative base, with no check on the new one; a relative operand uses the old
one. -/
def arbOn (c : Config) (m0 : Mode) (s : State) : Result :=
  commit s do
    let a ← resolveReadOn c s 0 m0
    let v ← exactResultOn c .arb (s.rb + a)
    return (s.setRb v).advanceIp 2

/-- HALT (R141): the status becomes Halted, `ip` stays at the HALT. -/
def haltOn (_ : Config) (s : State) : Result := commit s (.ok (s.setStatus .halted))

/-- The meaning of ARB (R140). -/
def execArb (m0 : Mode) (s : State) : Result := arbOn Config.hw m0 s

/-- The meaning of HALT (R141). -/
def execHalt (s : State) : Result := haltOn Config.hw s

end Sys2Proof.Machine
end

