-- ==== Sys2Proof/Machine/Dispatch.lean ====
section
/-! DEFINITION. exec: one arm per constructor of Instr, each one call of that instruction's own meaning. -/

namespace Sys2Proof.Machine

def exec (i : Instr) (s : State) : Host.Outcome State Fault Refusal :=
  match i with
  | .add m0 m1 m2 => Sys2Proof.Machine.execAdd m0 m1 m2 s
  | .mul m0 m1 m2 => Sys2Proof.Machine.execMul m0 m1 m2 s
  | .read m0 => Sys2Proof.Machine.execRead m0 s
  | .write m0 => Sys2Proof.Machine.execWrite m0 s
  | .jnz m0 m1 => Sys2Proof.Machine.execJnz m0 m1 s
  | .jz m0 m1 => Sys2Proof.Machine.execJz m0 m1 s
  | .lt m0 m1 m2 => Sys2Proof.Machine.execLt m0 m1 m2 s
  | .eq m0 m1 m2 => Sys2Proof.Machine.execEq m0 m1 m2 s
  | .arb m0 => Sys2Proof.Machine.execArb m0 s
  | .halt => Sys2Proof.Machine.execHalt s

end Sys2Proof.Machine
end

