-- ==== Sys2Proof/Machine/Fetch.lean ====
section
/-! DEFINITION. Fetch and decode at `ip` (spec/40_pipeline.md R82 to R84), and the entry of a run call (R95). -/

namespace Sys2Proof.Machine

/-- Reads the instruction word afresh from `ip` and decodes it; an `ip` above ADDR_MAX is ADDRESS_RANGE (FETCH)
(R82, R83, R84). -/
def fetchDecodeOn (c : Config) (s : State) : Except Cause Instr :=
  if s.ip ≤ c.addrMax then
    match decodeOn c (s.mem.read s.ip) with
    | .ok i => .ok i
    | .error e => .error (causeOfDecode e)
  else .error (.addressRange .fetch (s.ip : Int))

/-- Fetch and decode on this hardware. -/
def fetchDecode (s : State) : Except Cause Instr := fetchDecodeOn Config.hw s

/-- The entry of a run call (R95): a Halted or Faulted machine returns at once (`none`); a Running one goes on, and a
SuspendedForInput one becomes Running, its `ip` still at the READ that blocked. -/
def enterRun (s : State) : Option State :=
  match s.status with
  | .running => some s
  | .suspendedForInput => some (s.setStatus .running)
  | .halted => none
  | .faulted => none

/-- The words `ws` at `a, a+1, ..` of a memory. -/
def Memory.place (m : Memory) (a : Nat) : List Int → Memory
  | [] => m
  | w :: rest => Memory.place (m.write a w) (a + 1) rest

end Sys2Proof.Machine
end

