-- ==== Sys2Proof/Machine/Step.lean ====
section
/-! DEFINITION. One step of the machine (spec/40_pipeline.md R81) under the run contract (R95). -/

namespace Sys2Proof.Machine

/-- The step of R81: fetch, decode, then the instruction's meaning; a fault of fetch or decode is entered. R81 defines
it for status Running. -/
def engineStep (s : State) : Result :=
  match fetchDecode s with
  | .ok i => exec i s
  | .error f => commit s (.error f)

/-- One step of the machine that the host runs: the entry of the run call (R95), then the step of R81. A Halted or
Faulted machine changes nothing (R95, D10), and a SuspendedForInput one retries its READ (R95); see
notes/assumptions/1.md. -/
def step (s : State) : Result :=
  match enterRun s with
  | none => .next s
  | some s' => engineStep s'

/-- The state with the instruction word `w` and three operand words of zeros at `ip`, ready to run (the host's
question; notes/assumptions/8.md). -/
def State.withFetchWord (s : State) (_nbits w : Nat) : State :=
  { s with mem := s.mem.place s.ip [(w : Int), 0, 0, 0], status := .running }

end Sys2Proof.Machine
end

