-- ==== Sys2Proof/Machine/RunCall.lean ====
section
/-! DEFINITION. What the host may do to an instance (spec/40_pipeline.md R95, R96; spec/70_reset_and_hazards.md R180,
R183): construct it, append input, drain output, call run. -/

namespace Sys2Proof.Machine

/-- Construction: `new(initial_memory, optional initial_input_sequence)` (R180): memory from the image, everything else
at its reset value; no input sequence is the empty one. -/
def construct (image input : List Int) : State :=
  { State.reset with mem := Memory.ofImage image 0, input := input }

/-- The host appends words to the back of `in` (R96); in every status, see `hostAct`. -/
def appendInput (s : State) (ws : List Int) : State := { s with input := s.input ++ ws }

/-- The host removes the first `n` words of `out` and gets them (R96); in every status, see `hostAct`. -/
def drainOutput (s : State) (n : Nat) : List Int × State :=
  (s.output.take n, { s with output := s.output.drop n })

/-- The loop of a run call: steps while the status is Running (R95). `none` says that the fuel was used up, which is no
state of the hardware: a run call may never return (R99). -/
def runLoop : Nat → State → Option State
  | 0, s => if s.status = .running then none else some s
  | fuel + 1, s =>
    if s.status = .running then
      match engineStep s with
      | .next t => runLoop fuel t
      | .fault _ => none
      | .refused _ => none
    else some s

/-- A run call (R95), with at most `fuel` steps. -/
def runCall (fuel : Nat) (s : State) : Option State :=
  match enterRun s with
  | none => some s
  | some s' => runLoop fuel s'

/-- What the host does to a constructed instance between run calls, run calls among them (R96). -/
inductive HostAction where
  | append (ws : List Int)
  | drain (n : Nat)
  | run (fuel : Nat)
  deriving DecidableEq, Repr

/-- One host action (R96). DESIGN CHOICE, safe (notes/assumptions/13.md): append and drain are allowed in every status.
R96 and the spec's decision D18 put no condition on the status, while 60_exceptions.md R160 lets the host only inspect or
discard a Faulted instance; the model follows R96. A run call on a Faulted instance changes nothing (R95, R160). -/
def hostAct (s : State) : HostAction → Option State
  | .append ws => some (appendInput s ws)
  | .drain n => some (drainOutput s n).2
  | .run fuel => runCall fuel s

/-- Host actions one after the other: none happens while a run call is in progress (R96). -/
def session : State → List HostAction → Option State
  | s, [] => some s
  | s, a :: rest =>
    match hostAct s a with
    | none => none
    | some t => session t rest

end Sys2Proof.Machine
end

