-- ==== Sys2Proof/Machine/Instances.lean ====
section
/-! DEFINITION. Several machines beside each other (spec/10_state.md R33, spec/60_exceptions.md R166): they share no
memory, register or queue; the only path between two of them is the host moving words from one's `out` to another's
`in`. The order in which the host does so is the orchestrator's and outside the block (00_scope.md R6(b)). -/

namespace Sys2Proof.Machine

/-- The machines, each with its whole state. -/
abbrev Instances := List State

/-- A run call on machine `k` (R95); `none` when it has no machine `k` or the fuel is used up. -/
def Instances.run (sys : Instances) (k fuel : Nat) : Option Instances :=
  match sys[k]? with
  | none => none
  | some s =>
    match runCall fuel s with
    | none => none
    | some t => some (sys.set k t)

/-- The host drains the first `n` words of machine `i`'s output and appends them to machine `j`'s input (R166), whatever
their status (DESIGN CHOICE, notes/assumptions/13.md, as in `hostAct`). -/
def Instances.transfer (sys : Instances) (i j n : Nat) : Option Instances :=
  match sys[i]? with
  | none => none
  | some s =>
    let drained := sys.set i (drainOutput s n).2
    match drained[j]? with
    | none => none
    | some t => some (drained.set j (appendInput t (drainOutput s n).1))

end Sys2Proof.Machine
end

