-- ==== Sys2Proof/Machine/Load.lean ====
section
/-! DEFINITION. The program load format, the host's boot input (spec/70_reset_and_hazards.md R181, R182): one line of
comma-separated decimal integers, optionally signed. -/

namespace Sys2Proof.Machine

/-- "trimmed of surrounding whitespace" (R181; which characters, notes/assumptions/7.md). -/
def trimLine (cs : List Char) : List Char :=
  ((cs.dropWhile Char.isWhitespace).reverse.dropWhile Char.isWhitespace).reverse

/-- The texts between the commas. -/
def splitCommas : List Char → List (List Char)
  | [] => [[]]
  | c :: cs =>
    if c = ',' then [] :: splitCommas cs
    else
      match splitCommas cs with
      | [] => [[c]]
      | field :: fields => (c :: field) :: fields

/-- The value of a decimal digit character. -/
def digitOf? (c : Char) : Option Nat :=
  if '0'.toNat ≤ c.toNat ∧ c.toNat ≤ '9'.toNat then some (c.toNat - '0'.toNat) else none

/-- A digit string after the value `v` of the digits before it; any other character rejects it. -/
def digitsFrom? (v : Nat) : List Char → Option Nat
  | [] => some v
  | c :: cs =>
    match digitOf? c with
    | some d => digitsFrom? (10 * v + d) cs
    | none => none

/-- `[0-9]+` (R181). -/
def natOf? : List Char → Option Nat
  | [] => none
  | c :: cs => digitsFrom? 0 (c :: cs)

/-- `int = [+-]? [0-9]+` (R181). -/
def intOf? : List Char → Option Int
  | '-' :: cs => (natOf? cs).map (fun n => -(n : Int))
  | '+' :: cs => (natOf? cs).map (fun n => (n : Int))
  | cs => (natOf? cs).map (fun n => (n : Int))

/-- All fields, or none if one is no integer. -/
def intsOf? : List (List Char) → Option (List Int)
  | [] => some []
  | f :: fs =>
    match intOf? f, intsOf? fs with
    | some v, some vs => some (v :: vs)
    | _, _ => none

/-- `int ("," int)*` after trimming: the initial image, or `none` for a line that does not match (R181, R182). -/
def parseImage (line : List Char) : Option (List Int) := intsOf? (splitCommas (trimLine line))

/-- Loading: a line that does not match creates no machine, and there is no partial image (R182). -/
def loadLine (line : List Char) (input : List Int) : Option State :=
  (parseImage line).map (fun image => construct image input)

end Sys2Proof.Machine
end

