-- ==== Sys2Proof/Machine/Revision.lean ====
section
/-! DEFINITION. The same machine at other values of the block's parameters (spec/00_scope.md R2, R7, R8): earlier
revisions, which have fewer opcodes or modes, and finite-width realizations. At `Config.hw` it is `step`. -/

namespace Sys2Proof.Machine

/-- The instructions of a revision: the parameterised meanings. -/
def execOn (c : Config) (i : Instr) (s : State) : Result :=
  match i with
  | .add m0 m1 m2 => addOn c m0 m1 m2 s
  | .mul m0 m1 m2 => mulOn c m0 m1 m2 s
  | .read m0 => readOn c m0 s
  | .write m0 => writeOn c m0 s
  | .jnz m0 m1 => jnzOn c m0 m1 s
  | .jz m0 m1 => jzOn c m0 m1 s
  | .lt m0 m1 m2 => ltOn c m0 m1 m2 s
  | .eq m0 m1 m2 => eqOn c m0 m1 m2 s
  | .arb m0 => arbOn c m0 s
  | .halt => haltOn c s

/-- The step of a revision (40_pipeline.md R81 with its parameters), under the run contract (R95). -/
def stepOn (c : Config) (s : State) : Result :=
  match enterRun s with
  | none => .next s
  | some s' =>
    match fetchDecodeOn c s' with
    | .ok i => execOn c i s'
    | .error f => commit s' (.error f)

end Sys2Proof.Machine
end

