-- ==== Sys2Proof/Safety.lean ====
section
/-! DEFINITION. The terms the statements use: what a slot denotes and when resolving it faults, said without the
resolver (spec/40_pipeline.md R85 to R91), the latest write to an address (spec/20_memory.md R42), and the invariant of a
machine. -/

namespace Sys2Proof.Machine

/-! ## Operand slots -/

/-- The operand word `opw[i] = mem[ip+1+i]` (30_encoding.md R68). -/
def operandWord (s : State) (slot : Nat) : Int := s.mem.read (s.ip + 1 + slot)

/-- The effective address of a slot: the operand word in Position mode, `rb` plus it in Relative mode (20_memory.md R52).
Immediate mode has none; there the operand word stands, and no term below uses it. -/
def effectiveAddress (s : State) (slot : Nat) : Mode → Int
  | .position => operandWord s slot
  | .relative => s.rb + operandWord s slot
  | .immediate => operandWord s slot

/-- The value of a Read slot (R85, R87, R89). -/
def readValue (s : State) (slot : Nat) : Mode → Int
  | .position => s.mem.read (effectiveAddress s slot .position).toNat
  | .relative => s.mem.read (effectiveAddress s slot .relative).toNat
  | .immediate => operandWord s slot

/-- The destination address of a Write slot (R86, R90). -/
def destination (s : State) (slot : Nat) (m : Mode) : Nat := (effectiveAddress s slot m).toNat

/-- The access kind an effective address is checked for (R91). -/
def effectiveKind : Intent → AccessKind
  | .read => .effectiveRead
  | .write => .effectiveWrite

/-- The fault an effective address raises, if any: below zero, then above ADDR_MAX (R91 (2)). -/
def addressFault (kind : AccessKind) (ea : Int) : Option Cause :=
  if ea < 0 then some (.negativeAddress kind ea)
  else if (Config.hw.addrMax : Int) < ea then some (.addressRange kind ea)
  else none

/-- The fault resolving a slot raises, if any, in the order of R91 and 60_exceptions.md R158 (4). -/
def slotFault (s : State) (slot : Nat) (intent : Intent) (m : Mode) : Option Cause :=
  if Config.hw.addrMax < s.ip + 1 + slot then some (.addressRange .operandWord ((s.ip + 1 + slot : Nat) : Int))
  else if m = .immediate then (if intent = .write then some (.writeMode slot) else none)
  else addressFault (effectiveKind intent) (effectiveAddress s slot m)

/-- The first fault of the slots in ascending order, from a slot number on (R92). -/
def firstFaultFrom (s : State) : Nat → List (Intent × Mode) → Option Cause
  | _, [] => none
  | slot, (intent, m) :: rest =>
    match slotFault s slot intent m with
    | some f => some f
    | none => firstFaultFrom s (slot + 1) rest

/-- The fault resolving an instruction's operands raises, if any (R92). `none` is the premise under which an
instruction has its own effect: it speaks of the state and the operands alone. -/
def operandFault (s : State) (i : Instr) : Option Cause := firstFaultFrom s 0 i.slots

/-- The fault transition's result, written out (R94, R159). -/
def faultedAt (s : State) (f : Cause) : State :=
  { s with status := .faulted, fault := some { cause := f, faultIp := s.ip } }

/-- A taken jump to a negative target (43_control.md R122). -/
def jumpsBelowZero (s : State) : Instr → Prop
  | .jnz m0 m1 => readValue s 0 m0 ≠ 0 ∧ readValue s 1 m1 < 0
  | .jz m0 m1 => readValue s 0 m0 = 0 ∧ readValue s 1 m1 < 0
  | _ => False

/-- A machine a run call makes steps on (R95): neither Halted nor Faulted. -/
def live (s : State) : Prop := s.status = .running ∨ s.status = .suspendedForInput

/-! ## Memory -/

/-- The value of the most recent write to `a` in a list of writes, the oldest first (20_memory.md R42). -/
def latestWrite (a : Nat) : List (Nat × Int) → Option Int
  | [] => none
  | (k, v) :: rest =>
    match latestWrite a rest with
    | some w => some w
    | none => if k = a then some v else none

/-- The writes of a list done one after the other, the oldest first. -/
def writeAll (m : Memory) : List (Nat × Int) → Memory
  | [] => m
  | (k, v) :: rest => writeAll (m.write k v) rest

/-! ## The invariant -/

/-- The causes this hardware can record (60_exceptions.md R150 to R156). -/
def Cause.possible : Cause → Prop
  | .decodeOpcode w => w < 0 ∨ Opcode.ofCode? (w.toNat % 100) = none
  | .decodeMode slot digit => slot < 3 ∧ 3 ≤ digit ∧ digit ≤ 9
  | .writeMode slot => slot = 0 ∨ slot = 2
  | .negativeAddress kind value => value < 0 ∧ (kind = .effectiveRead ∨ kind = .effectiveWrite ∨ kind = .jumpTarget)
  | .addressRange kind value => (Config.hw.addrMax : Int) < value ∧ kind ≠ .jumpTarget
  | .overflow _ _ => False

/-- What holds of every machine between two steps. -/
structure State.Inv (s : State) : Prop where
  /-- Memory keeps its canonical form. -/
  memoryCanonical : s.mem.wf = true
  /-- Only addresses the memory unit accepts are listed (20_memory.md R40). -/
  memoryInRange : ∀ cell ∈ s.mem, cell.1 ≤ Config.hw.addrMax
  /-- A fault is recorded exactly when the status is Faulted (10_state.md R25). -/
  faultRecorded : s.status = .faulted ↔ s.fault ≠ none
  /-- The record names the `ip` the machine still has (40_pipeline.md R94) and a cause this hardware has. -/
  faultPrecise : ∀ r, s.fault = some r → r.faultIp = s.ip ∧ r.cause.possible
  /-- A suspended machine's `ip` is at the READ that blocked, and its destination resolves (10_state.md R24, R31). -/
  suspendedAtRead : s.status = .suspendedForInput →
    ∃ m, fetchDecode s = .ok (.read m) ∧ operandFault s (.read m) = none
  /-- A halted machine's `ip` is at the HALT (45_system.md R141). -/
  haltedAtHalt : s.status = .halted → fetchDecode s = .ok .halt

end Sys2Proof.Machine
end

