-- ==== Sys2Proof/Certificates/Slice0/Obligations.lean ====
section
/-! DEFINITION. The statements for the provers, in the order of OBLIGATIONS.json. -/

open Sys2Proof Sys2Proof.Machine

/-! ## The decoder -/

/-- The worked examples of 30_encoding.md R75: 1002 decoded for two operands and for MUL's own three, and the other
words of the source's examples. -/
def Obligations.WorkedExampleWordsDecode : Prop :=
  opcodeField 1002 = 2 ∧ Opcode.ofCode? 2 = some .mul ∧
  Mode.ofDigit? (modeDigit 1002 0) = some .position ∧ Mode.ofDigit? (modeDigit 1002 1) = some .immediate ∧
  Mode.ofDigit? (modeDigit 1002 2) = some .position ∧
  decode 1002 = .ok (.mul .position .immediate .position) ∧
  decode 109 = .ok (.arb .immediate) ∧
  decode 204 = .ok (.write .relative) ∧
  decode 1001 = .ok (.add .position .immediate .position) ∧
  decode 1008 = .ok (.eq .position .immediate .position) ∧
  decode 1006 = .ok (.jz .position .immediate) ∧
  decode 1102 = .ok (.mul .immediate .immediate .position)

/-- The words that decode to an instruction are its canonical word with any ignored digits above its own mode digits
(30_encoding.md R63, R72, R74), and no others. That higher digits are ignored is the spec's reading I7 (R63,
notes/assumptions/4.md); R72 and R74 are its own derivations. -/
def Obligations.InstructionWordsAreCanonicalWordPlusIgnoredDigits : Prop :=
  ∀ (w : Int) (i : Instr),
    decode w = .ok i ↔ ∃ k : Nat, w = encode i + ((k * 10 ^ (i.opcode.operandCount + 2) : Nat) : Int)

/-- DECODE_OPCODE is exactly a negative word (the spec's decision D4) or an opcode value outside the map, and names the
whole word (30_encoding.md R65, R67; 60_exceptions.md R150). -/
def Obligations.OpcodeRejectionIsExact : Prop :=
  ∀ w v : Int, decode w = .error (.opcode v) ↔
    v = w ∧ (w < 0 ∨ ∀ op : Opcode, op.code ≠ w.toNat % 100)

/-- DECODE_MODE is exactly the first digit above 2 among the mode digits of the opcode's own slots, and comes after
the opcode check (30_encoding.md R63, R64, R73; the order is the spec's decision D5, and that no digit beyond the own
slots is checked its reading I7, notes/assumptions/4.md). -/
def Obligations.ModeRejectionNamesFirstBadDigit : Prop :=
  ∀ (w : Int) (slot digit : Nat), decode w = .error (.mode slot digit) ↔
    0 ≤ w ∧ ∃ op : Opcode, op.code = w.toNat % 100 ∧ slot < op.operandCount ∧
      digit = w.toNat / 10 ^ (slot + 2) % 10 ∧ 2 < digit ∧
      ∀ j, j < slot → w.toNat / 10 ^ (j + 2) % 10 ≤ 2

/-- The decimal-string decoder of the source and the arithmetic one give the same opcode and the same mode digit in
every slot (30_encoding.md R61, R62, R76; R62's equality is the spec's own derivation). -/
def Obligations.StringDecoderAgreesWithArithmetic : Prop :=
  ∀ w slot : Nat, stringOpcode w = w % 100 ∧ stringModeDigit w slot = w / 10 ^ (slot + 2) % 10

/-! ## Memory -/

/-- A read gives the most recent write, or, if there was none, the image's word, or 0 beyond the image
(20_memory.md R41, R42, R43). -/
def Obligations.ReadGivesMostRecentWriteElseInitialWord : Prop :=
  ∀ (image : List Int) (writes : List (Nat × Int)) (a : Nat),
    (writeAll (Memory.ofImage image 0) writes).read a = (latestWrite a writes).getD (image.getD a 0)

/-- Two memories in canonical form that read the same everywhere are the same data (the model's form,
notes/assumptions/2.md, for 20_memory.md R45). -/
def Obligations.CanonicalMemoriesReadingAlikeAreEqual : Prop :=
  ∀ m m' : Memory, m.wf = true → m'.wf = true → (∀ a, m.read a = m'.read a) → m = m'

/-! ## The resolver -/

/-- What each mode resolves to with each intent, where the operand word and the effective address are addresses of the
memory unit (40_pipeline.md R85 to R90). -/
def Obligations.ResolverFollowsModeAndIntent : Prop :=
  ∀ (s : State) (slot : Nat) (w : Int), s.ip + 1 + slot ≤ 2 ^ 64 - 1 → s.mem.read (s.ip + 1 + slot) = w →
    (0 ≤ w → w ≤ 2 ^ 64 - 1 →
      resolveReadOn Config.hw s slot .position = .ok (s.mem.read w.toNat) ∧
      resolveWriteOn Config.hw s slot .position = .ok w.toNat) ∧
    (0 ≤ s.rb + w → s.rb + w ≤ 2 ^ 64 - 1 →
      resolveReadOn Config.hw s slot .relative = .ok (s.mem.read (s.rb + w).toNat) ∧
      resolveWriteOn Config.hw s slot .relative = .ok (s.rb + w).toNat) ∧
    resolveReadOn Config.hw s slot .immediate = .ok w ∧
    resolveWriteOn Config.hw s slot .immediate = .error (.writeMode slot)

/-- The address checks in their order: the operand word's address, then below zero, then above ADDR_MAX, with the kind
of the intent (40_pipeline.md R91; the bound is the spec's decision D3). -/
def Obligations.ResolverChecksAddressesInOrder : Prop :=
  ∀ (s : State) (slot : Nat) (w ea : Int) (m : Mode),
    (2 ^ 64 - 1 < s.ip + 1 + slot →
      resolveReadOn Config.hw s slot m = .error (.addressRange .operandWord (s.ip + 1 + slot)) ∧
      resolveWriteOn Config.hw s slot m = .error (.addressRange .operandWord (s.ip + 1 + slot))) ∧
    (s.ip + 1 + slot ≤ 2 ^ 64 - 1 → s.mem.read (s.ip + 1 + slot) = w →
      (m = .position ∧ ea = w ∨ m = .relative ∧ ea = s.rb + w) →
      (ea < 0 →
        resolveReadOn Config.hw s slot m = .error (.negativeAddress .effectiveRead ea) ∧
        resolveWriteOn Config.hw s slot m = .error (.negativeAddress .effectiveWrite ea)) ∧
      (2 ^ 64 - 1 < ea →
        resolveReadOn Config.hw s slot m = .error (.addressRange .effectiveRead ea) ∧
        resolveWriteOn Config.hw s slot m = .error (.addressRange .effectiveWrite ea)))

/-! ## The instructions: their effect, and that they complete -/

/-- ADD (41_arithmetic.md R100): the words it is encoded by, the exact sum stored at the destination with `ip` advanced
by 4, and WRITE_MODE in slot 2. -/
def Obligations.AddStoresTheExactSum : Prop :=
  ∀ (s : State) (m0 m1 m2 : Mode),
    decode ((1 + 100 * m0.digit + 1000 * m1.digit + 10000 * m2.digit : Nat) : Int) = .ok (.add m0 m1 m2) ∧
    (operandFault s (.add m0 m1 m2) = none →
      exec (.add m0 m1 m2) s = .next { s with
        mem := s.mem.write (destination s 2 m2) (readValue s 0 m0 + readValue s 1 m1), ip := s.ip + 4 }) ∧
    (slotFault s 0 .read m0 = none → slotFault s 1 .read m1 = none → s.ip + 3 ≤ 2 ^ 64 - 1 →
      exec (.add m0 m1 .immediate) s = .next (faultedAt s (.writeMode 2)))

/-- MUL (41_arithmetic.md R101): as ADD with the exact product. -/
def Obligations.MulStoresTheExactProduct : Prop :=
  ∀ (s : State) (m0 m1 m2 : Mode),
    decode ((2 + 100 * m0.digit + 1000 * m1.digit + 10000 * m2.digit : Nat) : Int) = .ok (.mul m0 m1 m2) ∧
    (operandFault s (.mul m0 m1 m2) = none →
      exec (.mul m0 m1 m2) s = .next { s with
        mem := s.mem.write (destination s 2 m2) (readValue s 0 m0 * readValue s 1 m1), ip := s.ip + 4 }) ∧
    (slotFault s 0 .read m0 = none → slotFault s 1 .read m1 = none → s.ip + 3 ≤ 2 ^ 64 - 1 →
      exec (.mul m0 m1 .immediate) s = .next (faultedAt s (.writeMode 2)))

/-- LT (44_compare.md R130): 1 stored if a < b in the integers, else 0. -/
def Obligations.LtStoresOneIfLessElseZero : Prop :=
  ∀ (s : State) (m0 m1 m2 : Mode),
    decode ((7 + 100 * m0.digit + 1000 * m1.digit + 10000 * m2.digit : Nat) : Int) = .ok (.lt m0 m1 m2) ∧
    (operandFault s (.lt m0 m1 m2) = none →
      exec (.lt m0 m1 m2) s = .next { s with
        mem := s.mem.write (destination s 2 m2) (if readValue s 0 m0 < readValue s 1 m1 then 1 else 0),
        ip := s.ip + 4 }) ∧
    (slotFault s 0 .read m0 = none → slotFault s 1 .read m1 = none → s.ip + 3 ≤ 2 ^ 64 - 1 →
      exec (.lt m0 m1 .immediate) s = .next (faultedAt s (.writeMode 2)))

/-- EQ (44_compare.md R131): 1 stored if a = b, else 0. -/
def Obligations.EqStoresOneIfEqualElseZero : Prop :=
  ∀ (s : State) (m0 m1 m2 : Mode),
    decode ((8 + 100 * m0.digit + 1000 * m1.digit + 10000 * m2.digit : Nat) : Int) = .ok (.eq m0 m1 m2) ∧
    (operandFault s (.eq m0 m1 m2) = none →
      exec (.eq m0 m1 m2) s = .next { s with
        mem := s.mem.write (destination s 2 m2) (if readValue s 0 m0 = readValue s 1 m1 then 1 else 0),
        ip := s.ip + 4 }) ∧
    (slotFault s 0 .read m0 = none → slotFault s 1 .read m1 = none → s.ip + 3 ≤ 2 ^ 64 - 1 →
      exec (.eq m0 m1 .immediate) s = .next (faultedAt s (.writeMode 2)))

/-- READ (42_io.md R110): the front of the input stored with `ip` advanced by 2, or, with no input, the suspension with
nothing else changed; WRITE_MODE in slot 0, raised with or without input (the spec's decision D11). -/
def Obligations.ReadStoresFrontInputOrSuspends : Prop :=
  ∀ (s : State) (m0 : Mode),
    decode ((3 + 100 * m0.digit : Nat) : Int) = .ok (.read m0) ∧
    (operandFault s (.read m0) = none → ∀ v rest, s.input = v :: rest →
      exec (.read m0) s = .next { s with
        mem := s.mem.write (destination s 0 m0) v, ip := s.ip + 2, input := rest }) ∧
    (operandFault s (.read m0) = none → s.input = [] →
      exec (.read m0) s = .next { s with status := .suspendedForInput }) ∧
    (s.ip + 1 ≤ 2 ^ 64 - 1 → exec (.read .immediate) s = .next (faultedAt s (.writeMode 0)))

/-- WRITE (42_io.md R111): the value appended to the output with `ip` advanced by 2. -/
def Obligations.WriteAppendsTheValueToOutput : Prop :=
  ∀ (s : State) (m0 : Mode),
    decode ((4 + 100 * m0.digit : Nat) : Int) = .ok (.write m0) ∧
    (operandFault s (.write m0) = none →
      exec (.write m0) s = .next { s with output := s.output ++ [readValue s 0 m0], ip := s.ip + 2 })

/-- JNZ (43_control.md R120): taken when a is not zero, `ip` exactly the target; a negative target of a taken jump faults
(R122, the spec's decision D9); not taken, `ip` advances by 3 whatever the target. -/
def Obligations.JnzJumpsIfNotZero : Prop :=
  ∀ (s : State) (m0 m1 : Mode), operandFault s (.jnz m0 m1) = none →
    (readValue s 0 m0 ≠ 0 → 0 ≤ readValue s 1 m1 →
      exec (.jnz m0 m1) s = .next { s with ip := (readValue s 1 m1).toNat }) ∧
    (readValue s 0 m0 = 0 → exec (.jnz m0 m1) s = .next { s with ip := s.ip + 3 }) ∧
    (readValue s 0 m0 ≠ 0 → readValue s 1 m1 < 0 →
      exec (.jnz m0 m1) s = .next (faultedAt s (.negativeAddress .jumpTarget (readValue s 1 m1))))

/-- JZ (43_control.md R121): as JNZ with the condition inverted. -/
def Obligations.JzJumpsIfZero : Prop :=
  ∀ (s : State) (m0 m1 : Mode), operandFault s (.jz m0 m1) = none →
    (readValue s 0 m0 = 0 → 0 ≤ readValue s 1 m1 →
      exec (.jz m0 m1) s = .next { s with ip := (readValue s 1 m1).toNat }) ∧
    (readValue s 0 m0 ≠ 0 → exec (.jz m0 m1) s = .next { s with ip := s.ip + 3 }) ∧
    (readValue s 0 m0 = 0 → readValue s 1 m1 < 0 →
      exec (.jz m0 m1) s = .next (faultedAt s (.negativeAddress .jumpTarget (readValue s 1 m1))))

/-- ARB (45_system.md R140): the value added to `rb`, and `ip` advanced by 2; a relative operand is read with the old
`rb`; every other instruction leaves `rb`. That the sum is stored with no check, negative or not, is the spec's decision
D12 (10_state.md R23, notes/assumptions/4.md). -/
def Obligations.ArbAloneAddsToTheRelativeBase : Prop :=
  (∀ (s : State) (m0 : Mode),
    decode ((9 + 100 * m0.digit : Nat) : Int) = .ok (.arb m0) ∧
    (operandFault s (.arb m0) = none →
      exec (.arb m0) s = .next { s with rb := s.rb + readValue s 0 m0, ip := s.ip + 2 })) ∧
  ∀ (s t : State) (i : Instr), exec i s = .next t → (∀ m, i ≠ .arb m) → t.rb = s.rb

/-- HALT (45_system.md R141): only the status changes. That every word ending in 99 is it, whatever its higher digits,
rests on the spec's reading I7 (30_encoding.md R63, notes/assumptions/4.md). -/
def Obligations.HaltOnlySetsTheStatus : Prop :=
  (∀ k : Nat, decode ((99 + 100 * k : Nat) : Int) = .ok .halt) ∧
  ∀ s : State, exec .halt s = .next { s with status := .halted }

/-! ## Faults -/

/-- An instruction whose operands do not resolve enters the first fault in slot order, before any effect, suspension
and jump included (40_pipeline.md R92, R94; 60_exceptions.md R158 (4); the spec's decisions D5, D6, D11). -/
def Obligations.FirstOperandFaultIsEnteredBeforeAnyEffect : Prop :=
  ∀ (s : State) (i : Instr) (f : Cause), operandFault s i = some f → exec i s = .next (faultedAt s f)

/-- An Immediate Write slot is a legal word of an instruction that never completes: it decodes, and running it ends
Faulted (30_encoding.md R69). -/
def Obligations.IllFormedInstructionsDecodeAndFault : Prop :=
  ∀ (i : Instr) (s : State), i.wellFormed = false →
    decode (encode i) = .ok i ∧ ∃ f, exec i s = .next (faultedAt s f)

/-- A step that ends Faulted changed the status and the fault record and nothing else, and the record's `ip` is the one
the machine still has (40_pipeline.md R94; the spec's decision D6). -/
def Obligations.FaultingStepCommitsNothing : Prop :=
  ∀ s t : State, s.status ≠ .faulted → step s = .next t → t.status = .faulted →
    ∃ f : Cause, t = { s with status := .faulted, fault := some { cause := f, faultIp := s.ip } }

/-- A step faults exactly when fetch or decode does, an operand does not resolve, or a taken jump's target is negative
(60_exceptions.md R158; no OVERFLOW on this hardware, R156). -/
def Obligations.StepFaultsExactlyWhenSomeCheckFails : Prop :=
  ∀ s t : State, live s → step s = .next t →
    (t.status = .faulted ↔
      (∃ f, fetchDecode s = .error f) ∨
      ∃ i, fetchDecode s = .ok i ∧ ((∃ f, operandFault s i = some f) ∨ jumpsBelowZero s i))

/-! ## The step -/

/-- When the word at `ip` decodes to an instruction, the step of a machine that a run call runs is that instruction's
meaning, with the status Running (40_pipeline.md R81, R95; notes/assumptions/1.md). -/
def Obligations.StepRunsTheDecodedInstruction : Prop :=
  ∀ (s : State) (i : Instr), (s.status = .running ∨ s.status = .suspendedForInput) → s.ip ≤ 2 ^ 64 - 1 →
    decode (s.mem.read s.ip) = .ok i → step s = exec i { s with status := .running }

/-- An `ip` above ADDR_MAX faults at fetch with that `ip`, and a word that does not decode faults with the word or with
the slot and digit (40_pipeline.md R82, R83, R84; the bound is the spec's decision D3). -/
def Obligations.FetchAndDecodeFaultsAreEntered : Prop :=
  ∀ s : State, s.status = .running →
    (2 ^ 64 - 1 < s.ip → step s = .next (faultedAt s (.addressRange .fetch s.ip))) ∧
    (s.ip ≤ 2 ^ 64 - 1 → ∀ w, decode (s.mem.read s.ip) = .error (.opcode w) →
      step s = .next (faultedAt s (.decodeOpcode w))) ∧
    (s.ip ≤ 2 ^ 64 - 1 → ∀ slot digit, decode (s.mem.read s.ip) = .error (.mode slot digit) →
      step s = .next (faultedAt s (.decodeMode slot digit)))

/-- Every opcode value outside the map is unsupported and ends Faulted with DECODE_OPCODE and the word, the word 0 among
them (30_encoding.md R67). -/
def Obligations.UnsupportedOpcodesFault : Prop :=
  ∀ (s : State) (w : Nat), s.status = .running → s.ip ≤ 2 ^ 64 - 1 → s.mem.read s.ip = (w : Int) →
    (w % 100 = 0 ∨ 10 ≤ w % 100 ∧ w % 100 ≤ 98) →
    step s = .next (faultedAt s (.decodeOpcode w)) ∧ decode 0 = .error (.opcode 0)

/-- A step always answers a next state: no instruction, state or word is refused (40_pipeline.md R80, its four
outcomes; for a Halted or Faulted machine notes/assumptions/1.md). -/
def Obligations.EveryStepAndInstructionAnswersANextState : Prop :=
  (∀ s : State, ∃ t, step s = .next t) ∧ ∀ (i : Instr) (s : State), ∃ t, exec i s = .next t

/-- A Halted or Faulted machine changes in no step and in no run call (40_pipeline.md R95, the spec's decision D10;
notes/assumptions/1.md for the step). -/
def Obligations.HaltedAndFaultedMachinesNeverChange : Prop :=
  ∀ s : State, (s.status = .halted ∨ s.status = .faulted) → step s = .next s ∧ ∀ fuel, runCall fuel s = some s

/-! ## Frames -/

/-- The frame of ADD, MUL, LT and EQ: `rb` and the queues never change; memory changes at the address slot 2 resolves to
and nowhere else, and nowhere at all on an operand fault; status and fault record change only on an operand fault. -/
def Obligations.FrameOfThreeOperandInstructions : Prop :=
  ∀ (s t : State) (i : Instr) (m0 m1 m2 : Mode),
    (i = .add m0 m1 m2 ∨ i = .mul m0 m1 m2 ∨ i = .lt m0 m1 m2 ∨ i = .eq m0 m1 m2) → exec i s = .next t →
    t.rb = s.rb ∧ t.input = s.input ∧ t.output = s.output ∧
    (∀ a, resolveWriteOn Config.hw s 2 m2 ≠ .ok a → t.mem.read a = s.mem.read a) ∧
    (operandFault s i ≠ none → ∀ a, t.mem.read a = s.mem.read a) ∧
    (operandFault s i = none → t.status = s.status ∧ t.fault = s.fault)

/-- The frame of READ: `rb` and the output never change; memory changes at the address slot 0 resolves to and nowhere
else, and nowhere at all without input; the fault record changes only on an operand fault, and the status only then or on a
suspension; on an operand fault the input stays. -/
def Obligations.FrameOfRead : Prop :=
  ∀ (s t : State) (m0 : Mode), exec (.read m0) s = .next t →
    t.rb = s.rb ∧ t.output = s.output ∧
    (∀ a, resolveWriteOn Config.hw s 0 m0 ≠ .ok a → t.mem.read a = s.mem.read a) ∧
    (s.input = [] → t.input = [] ∧ ∀ a, t.mem.read a = s.mem.read a) ∧
    (operandFault s (.read m0) ≠ none → t.input = s.input) ∧
    (operandFault s (.read m0) = none → t.fault = s.fault ∧ (s.input ≠ [] → t.status = s.status))

/-- The frame of the instructions that store nothing: WRITE, JNZ, JZ, ARB, HALT. Every address reads as before and the
input stays; only WRITE changes the output, only ARB `rb`; the fault record changes only on a fault, and the status only
then or by HALT, which leaves `ip`. -/
def Obligations.FrameOfInstructionsThatStoreNothing : Prop :=
  ∀ (s t : State) (i : Instr),
    ((∃ m, i = .write m) ∨ (∃ m0 m1, i = .jnz m0 m1) ∨ (∃ m0 m1, i = .jz m0 m1) ∨ (∃ m, i = .arb m) ∨ i = .halt) →
    exec i s = .next t →
    (∀ a, t.mem.read a = s.mem.read a) ∧ t.input = s.input ∧
    ((∀ m, i ≠ .write m) → t.output = s.output) ∧
    ((∀ m, i ≠ .arb m) → t.rb = s.rb) ∧
    (operandFault s i = none → ¬ jumpsBelowZero s i → t.fault = s.fault ∧ (i ≠ .halt → t.status = s.status)) ∧
    (i = .halt → t.ip = s.ip)

/-! ## Whole-machine rules -/

/-- Only ARB writes `rb` (10_state.md R23: "mutated only by the ARB opcode"). -/
def Obligations.OnlyArbChangesTheRelativeBase : Prop :=
  ∀ s t : State, step s = .next t → t.rb ≠ s.rb → ∃ m, fetchDecode s = .ok (.arb m)

/-- The queues are FIFO and values pass unchanged: a step takes at most the front of the input, by a READ that stores it
at its destination, and appends at most one word to the output, by a WRITE whose operand it is (42_io.md R112). -/
def Obligations.QueuesAreFifoAndValuesPassUnchanged : Prop :=
  ∀ s t : State, step s = .next t →
    (t.input = s.input ∨ ∃ m v, fetchDecode s = .ok (.read m) ∧ s.input = v :: t.input ∧
      t.mem.read (destination s 0 m) = v) ∧
    (t.output = s.output ∨ ∃ m, fetchDecode s = .ok (.write m) ∧ t.output = s.output ++ [readValue s 0 m])

/-- A step changes at most one word of memory, the destination of the instruction's own Write slot (20_memory.md R50,
40_pipeline.md R93; R50 is the spec's own derivation). -/
def Obligations.OnlyTheWriteSlotsDestinationChanges : Prop :=
  ∀ (s t : State) (a : Nat), step s = .next t → t.mem.read a ≠ s.mem.read a →
    ∃ i slot m, fetchDecode s = .ok i ∧ i.slots[slot]? = some (.write, m) ∧ a = destination s slot m

/-- How the status moves: a machine that runs is Halted after a step exactly if it executed HALT, and suspended exactly
if it executed a READ whose destination resolves with no input (10_state.md R24, 42_io.md R110, 45_system.md R141). -/
def Obligations.HaltAndReadAloneStopARunningMachine : Prop :=
  ∀ s t : State, live s → step s = .next t →
    (t.status = .halted ↔ fetchDecode s = .ok .halt) ∧
    (t.status = .suspendedForInput ↔
      ∃ m, fetchDecode s = .ok (.read m) ∧ operandFault s (.read m) = none ∧ s.input = [])

/-- Where `ip` goes: a step that leaves the machine Running advances it by the instruction's width or sets it to the
value of a taken jump's target, and a step that does not leaves it (10_state.md R22, 40_pipeline.md R93). -/
def Obligations.NextIpIsWidthOrJumpTarget : Prop :=
  ∀ s t : State, step s = .next t →
    (t.status ≠ .running → t.ip = s.ip) ∧
    (t.status = .running → ∃ i, fetchDecode s = .ok i ∧
      (t.ip = s.ip + i.opcode.width ∨
        ∃ m0 m1, (i = .jnz m0 m1 ∧ readValue s 0 m0 ≠ 0 ∨ i = .jz m0 m1 ∧ readValue s 0 m0 = 0) ∧
          (t.ip : Int) = readValue s 1 m1))

/-- Self-modifying code: an ADD whose destination is the next instruction's word changes that instruction before it is
fetched (20_memory.md R53, 70_reset_and_hazards.md R185; R185 is the spec's own derivation). -/
def Obligations.StoredWordIsTheNextInstructionFetched : Prop :=
  ∀ (s t : State) (m0 m1 m2 : Mode) (j : Instr), s.status = .running →
    fetchDecode s = .ok (.add m0 m1 m2) → operandFault s (.add m0 m1 m2) = none →
    destination s 2 m2 = s.ip + 4 → decode (readValue s 0 m0 + readValue s 1 m1) = .ok j →
    step s = .next t → step t = exec j t

/-- What the host has not drained yet changes no step: a step appends to whatever output is there (10_state.md R27, R31,
40_pipeline.md R96). -/
def Obligations.EarlierOutputNeverInfluencesAStep : Prop :=
  ∀ (s t : State) (o : List Int), step s = .next t →
    step { s with output := o ++ s.output } = .next { t with output := o ++ t.output }

/-- Input behind the front changes no step: a step that does not suspend does the same with more input appended
(10_state.md R26, 42_io.md R112). -/
def Obligations.LaterInputNeverInfluencesAStep : Prop :=
  ∀ (s t : State) (ws : List Int), step s = .next t → t.status ≠ .suspendedForInput →
    step (appendInput s ws) = .next (appendInput t ws)

/-- No instruction reads the fault record (10_state.md R31, 45_system.md R142). -/
def Obligations.FaultRecordIsNeverRead : Prop :=
  ∀ (s t : State) (r : Option FaultRecord), s.status = .running → step s = .next t → t.status ≠ .faulted →
    step { s with fault := r } = .next { t with fault := r }

/-! ## Run calls and the host -/

/-- A READ that suspended is retried, not skipped: after the host appends input, the next step stores its front value at
the destination the suspended READ had and goes on; without input the machine stays as it is (42_io.md R110, 40_pipeline.md
R95; "retried by the next run call" is what the step of notes/assumptions/1.md stands for). -/
def Obligations.SuspendedReadIsRetriedNotSkipped : Prop :=
  ∀ (s t : State) (m : Mode) (v : Int) (rest : List Int), s.status = .running → fetchDecode s = .ok (.read m) →
    step s = .next t → t.status = .suspendedForInput →
    t = { s with status := .suspendedForInput } ∧ step t = .next t ∧
    step (appendInput t (v :: rest)) = .next { s with
      mem := s.mem.write (destination s 0 m) v, ip := s.ip + 2, input := rest }

/-- A run call ends only Suspended, Halted or Faulted (40_pipeline.md R97). -/
def Obligations.RunCallEndsOnlyWhenNotRunning : Prop :=
  ∀ (fuel : Nat) (s t : State), runCall fuel s = some t →
    t.status = .suspendedForInput ∨ t.status = .halted ∨ t.status = .faulted

/-- More fuel gives the same end of a run call: fuel is no part of the machine (40_pipeline.md R98, R99). -/
def Obligations.MoreFuelGivesTheSameRunCall : Prop :=
  ∀ (n k : Nat) (s t : State), runCall n s = some t → runCall (n + k) s = some t

/-- Suspending, feeding and resuming ends as one run call that was fed from the start: no instruction is skipped or
duplicated (42_io.md R110, 40_pipeline.md R95). -/
def Obligations.FeedingAfterSuspensionEqualsFeedingUpFront : Prop :=
  ∀ (s t u : State) (ws : List Int) (n m : Nat), runCall n s = some t → t.status = .suspendedForInput →
    runCall m (appendInput t ws) = some u → ∃ k, runCall k (appendInput s ws) = some u

/-- Between run calls the host only appends to the input and takes a first part of the output (40_pipeline.md R96, the
spec's decision D18). That it may do so to a Faulted machine too is the model's choice (notes/assumptions/13.md). -/
def Obligations.HostTouchesOnlyTheQueues : Prop :=
  ∀ (s : State) (ws : List Int) (n : Nat),
    hostAct s (.append ws) = some { s with input := s.input ++ ws } ∧
    hostAct s (.drain n) = some (drainOutput s n).2 ∧
    (drainOutput s n).1 ++ (drainOutput s n).2.output = s.output ∧
    (drainOutput s n).2 = { s with output := (drainOutput s n).2.output }

/-- Construction (10_state.md R32, 70_reset_and_hazards.md R180): memory reads as the image with 0 beyond it, and every
other piece of state has its reset value (the fault record's is the spec's decision D7). -/
def Obligations.ConstructionSetsEveryResetValue : Prop :=
  ∀ (image input : List Int),
    (∀ a, (construct image input).mem.read a = if h : a < image.length then image[a] else 0) ∧
    (construct image input).ip = 0 ∧ (construct image input).rb = 0 ∧
    (construct image input).status = .running ∧ (construct image input).fault = none ∧
    (construct image input).input = input ∧ (construct image input).output = []

/-- A loaded line has one word of image per comma-separated field (70_reset_and_hazards.md R181: "the count of integers
is `L0`"). -/
def Obligations.LoadedImageHasOneWordPerField : Prop :=
  ∀ (line : List Char) (image : List Int), parseImage line = some image →
    image.length = line.count ',' + 1

/-! ## Invariants -/

/-- Every step keeps the invariant: canonical memory in range, a precise fault record exactly when Faulted, a suspended
machine at its READ, a halted one at its HALT. -/
def Obligations.EveryStepKeepsTheInvariantOfTheMachine : Prop :=
  ∀ s t : State, s.Inv → step s = .next t → t.Inv

/-- Every host action, run calls among them, keeps the invariant (40_pipeline.md R95, R96), on a Faulted machine too,
to which the model lets the host append and drain (the model's choice, notes/assumptions/13.md). -/
def Obligations.HostActionsKeepTheInvariantOfTheMachine : Prop :=
  ∀ (s t : State) (a : HostAction), s.Inv → hostAct s a = some t → t.Inv

/-- The reset state is the construction with the empty image and no input (the model's choice, notes/assumptions/3.md),
and has the invariant. -/
def Obligations.ResetStateHasTheInvariantOfTheMachine : Prop :=
  State.reset = construct [] [] ∧ State.reset.Inv

/-- A constructed machine has the invariant, if its image fits the address space. -/
def Obligations.ConstructedMachinesHaveTheInvariant : Prop :=
  ∀ image input : List Int, image.length ≤ 2 ^ 64 → (construct image input).Inv

/-! ## Other values of the parameters, and several machines -/

/-- The parameterised step at this hardware's parameters is the step (00_scope.md R2, R8). -/
def Obligations.FinalRevisionIsThisMachine : Prop :=
  ∀ (s : State) (i : Instr), stepOn Config.hw s = step s ∧ execOn Config.hw i s = exec i s

/-- An earlier revision faults on an opcode or a mode it does not have, as on an unsupported one (00_scope.md R2,
30_encoding.md R64, R66; the spec's decision D17). -/
def Obligations.DisabledOpcodesAndModesFault : Prop :=
  ∀ (c : Config) (s : State) (w : Nat) (op : Opcode), s.status = .running → s.ip ≤ c.addrMax →
    s.mem.read s.ip = (w : Int) → op.code = w % 100 →
    (op ∉ c.enabledOpcodes → stepOn c s = .next (faultedAt s (.decodeOpcode w))) ∧
    (op ∈ c.enabledOpcodes → ∀ slot, slot < op.operandCount →
      (∀ m, m.digit = w / 10 ^ (slot + 2) % 10 → m ∉ c.enabledModes) →
      (∀ j, j < slot → ∃ m ∈ c.enabledModes, m.digit = w / 10 ^ (j + 2) % 10) →
      stepOn c s = .next (faultedAt s (.decodeMode slot (w / 10 ^ (slot + 2) % 10))))

/-- A finite-width realization raises OVERFLOW on a result outside its words and commits nothing, and never wraps: a
result that fits is stored exact (41_arithmetic.md R103, 60_exceptions.md R156; the spec's decision D2, the range
notes/assumptions/6.md). -/
def Obligations.FiniteWidthOverflowFaultsAndNeverWraps : Prop :=
  ∀ (c : Config) (s : State) (m0 m1 m2 : Mode) (a b : Int) (d : Nat),
    resolveReadOn c s 0 m0 = .ok a →
    (resolveReadOn c s 1 m1 = .ok b → resolveWriteOn c s 2 m2 = .ok d →
      addOn c m0 m1 m2 s = .next (if fitsOn c (a + b) then { s with mem := s.mem.write d (a + b), ip := s.ip + 4 }
        else faultedAt s (.overflow .add (a + b))) ∧
      mulOn c m0 m1 m2 s = .next (if fitsOn c (a * b) then { s with mem := s.mem.write d (a * b), ip := s.ip + 4 }
        else faultedAt s (.overflow .mul (a * b)))) ∧
    arbOn c m0 s = .next (if fitsOn c (s.rb + a) then { s with rb := s.rb + a, ip := s.ip + 2 }
      else faultedAt s (.overflow .arb (s.rb + a)))

/-- Machines share nothing: a run call on one changes no other, and moving words between two changes only the one's
output and the other's input (10_state.md R33, 60_exceptions.md R166). That Faulted machines take part in such moves is
the model's choice (notes/assumptions/13.md). -/
def Obligations.MachinesShareNoState : Prop :=
  (∀ (sys sys' : Instances) (k fuel j : Nat), sys.run k fuel = some sys' → j ≠ k → sys'[j]? = sys[j]?) ∧
  (∀ (sys sys' : Instances) (i j n k : Nat) (s s' : State), sys.transfer i j n = some sys' →
    sys[k]? = some s → sys'[k]? = some s' →
    (k ≠ i → s'.output = s.output) ∧ (k ≠ j → s'.input = s.input) ∧
    s'.mem = s.mem ∧ s'.ip = s.ip ∧ s'.rb = s.rb ∧ s'.status = s.status ∧ s'.fault = s.fault)
end

