-- ==== Sys2Proof/Laws/Memory.lean ====
section
/-! SUPPORT. The laws of memory: a read after a write, and the canonical form kept by every memory operation. -/

namespace Sys2Proof.Machine

theorem Memory.read_insertCell_same (m : Memory) (a : Nat) (v : Int) (h : ∀ c ∈ m, c.1 ≠ a) :
    Memory.read (Memory.insertCell a v m) a = v := by
  induction m with
  | nil => simp [Memory.insertCell, Memory.read]
  | cons c rest ih =>
    obtain ⟨k, x⟩ := c
    have hk : k ≠ a := h (k, x) (by simp)
    by_cases hlt : a < k
    · simp [Memory.insertCell, Memory.read, hlt]
    · simp only [Memory.insertCell, hlt, if_false, Memory.read, hk]
      exact ih fun c hc => h c (List.mem_cons_of_mem _ hc)

theorem Memory.read_insertCell_other (m : Memory) (a b : Nat) (v : Int) (h : b ≠ a) :
    Memory.read (Memory.insertCell a v m) b = Memory.read m b := by
  induction m with
  | nil => simp [Memory.insertCell, Memory.read, h.symm]
  | cons c rest ih =>
    obtain ⟨k, x⟩ := c
    by_cases hlt : a < k
    · simp [Memory.insertCell, Memory.read, hlt, h.symm]
    · simp only [Memory.insertCell, hlt, if_false, Memory.read, ih]

theorem Memory.read_filter_same (m : Memory) (a : Nat) :
    Memory.read (m.filter (fun cell => cell.1 ≠ a)) a = Memory.blankWord := by
  induction m with
  | nil => rfl
  | cons c rest ih =>
    obtain ⟨k, x⟩ := c
    by_cases hk : k = a
    · simpa [List.filter_cons, hk] using ih
    · simpa [List.filter_cons, hk, Memory.read] using ih

theorem Memory.read_filter_other (m : Memory) (a b : Nat) (h : b ≠ a) :
    Memory.read (m.filter (fun cell => cell.1 ≠ a)) b = Memory.read m b := by
  induction m with
  | nil => rfl
  | cons c rest ih =>
    obtain ⟨k, x⟩ := c
    by_cases hk : k = a
    · have : k ≠ b := fun e => h (e ▸ hk)
      simpa [List.filter_cons, hk, Memory.read, h.symm] using ih
    · simp only [ne_eq, decide_not] at ih
      simp [hk, Memory.read, ih]

/-- A read after a write to the same address gives the word written (20_memory.md R42, R43). -/
@[simp] theorem Memory.read_write_same (m : Memory) (a : Nat) (v : Int) : (m.write a v).read a = v := by
  unfold Memory.write
  split
  · next h => rw [Memory.read_filter_same, h]
  · exact Memory.read_insertCell_same _ a v fun c hc => by simpa using (List.mem_filter.mp hc).2

/-- A write leaves every other address alone (20_memory.md R43). -/
theorem Memory.read_write_other (m : Memory) (a b : Nat) (v : Int) (h : b ≠ a) :
    (m.write a v).read b = m.read b := by
  unfold Memory.write
  split
  · exact Memory.read_filter_other m a b h
  · rw [Memory.read_insertCell_other _ a b v h, Memory.read_filter_other m a b h]

theorem Memory.read_write (m : Memory) (a b : Nat) (v : Int) :
    (m.write a v).read b = if b = a then v else m.read b := by
  by_cases h : b = a
  · subst h; simp
  · simp [h, Memory.read_write_other m a b v h]

/-! ## The canonical form -/

/-- The canonical form, said of the first cell and the rest. -/
theorem Memory.wf_cons (a : Nat) (v : Int) (m : Memory) :
    Memory.wf ((a, v) :: m) = true ↔
      v ≠ Memory.blankWord ∧ (∀ c ∈ m, a < c.1) ∧ Memory.wf m = true := by
  induction m generalizing a v with
  | nil => simp [Memory.wf]
  | cons c rest ih =>
    obtain ⟨b, w⟩ := c
    simp only [Memory.wf, Bool.and_eq_true, decide_eq_true_eq, List.mem_cons, forall_eq_or_imp]
    constructor
    · rintro ⟨⟨hv, hab⟩, hw⟩
      exact ⟨hv, ⟨hab, fun c hc => hab.trans (((ih b w).mp hw).2.1 c hc)⟩, hw⟩
    · rintro ⟨hv, ⟨hab, -⟩, hw⟩
      exact ⟨⟨hv, hab⟩, hw⟩

theorem Memory.wf_filter (m : Memory) (p : Nat × Int → Bool) (h : m.wf = true) :
    Memory.wf (m.filter p) = true := by
  induction m with
  | nil => rfl
  | cons c rest ih =>
    obtain ⟨k, x⟩ := c
    obtain ⟨hx, hk, hr⟩ := (Memory.wf_cons k x rest).mp h
    by_cases hp : p (k, x) = true
    · rw [List.filter_cons_of_pos hp]
      exact (Memory.wf_cons ..).mpr ⟨hx, fun c hc => hk c (List.mem_filter.mp hc).1, ih hr⟩
    · rw [List.filter_cons_of_neg hp]
      exact ih hr

theorem Memory.mem_insertCell {c : Nat × Int} {a : Nat} {v : Int} {m : Memory} :
    c ∈ Memory.insertCell a v m ↔ c = (a, v) ∨ c ∈ m := by
  induction m with
  | nil => simp [Memory.insertCell]
  | cons d rest ih =>
    obtain ⟨k, x⟩ := d
    by_cases hlt : a < k
    · simp [Memory.insertCell, hlt]
    · simp only [Memory.insertCell, hlt, if_false, List.mem_cons, ih]
      tauto

theorem Memory.wf_insertCell (m : Memory) (a : Nat) (v : Int) (hv : v ≠ Memory.blankWord)
    (hne : ∀ c ∈ m, c.1 ≠ a) (h : m.wf = true) : Memory.wf (Memory.insertCell a v m) = true := by
  induction m with
  | nil => simpa [Memory.insertCell, Memory.wf] using hv
  | cons d rest ih =>
    obtain ⟨k, x⟩ := d
    obtain ⟨hx, hk, hr⟩ := (Memory.wf_cons k x rest).mp h
    have hka : k ≠ a := hne (k, x) (by simp)
    by_cases hlt : a < k
    · rw [show Memory.insertCell a v ((k, x) :: rest) = (a, v) :: (k, x) :: rest by simp [Memory.insertCell, hlt]]
      refine (Memory.wf_cons ..).mpr ⟨hv, ?_, h⟩
      rintro c (_ | ⟨_, hc⟩)
      · exact hlt
      · exact hlt.trans (hk c hc)
    · rw [show Memory.insertCell a v ((k, x) :: rest) = (k, x) :: Memory.insertCell a v rest by
        simp [Memory.insertCell, hlt]]
      refine (Memory.wf_cons ..).mpr ⟨hx, ?_, ih (fun c hc => hne c (List.mem_cons_of_mem _ hc)) hr⟩
      intro c hc
      rcases Memory.mem_insertCell.mp hc with rfl | hc
      · exact lt_of_le_of_ne (not_lt.mp hlt) hka
      · exact hk c hc

/-- A write keeps the canonical form. -/
theorem Memory.wf_write (m : Memory) (a : Nat) (v : Int) (h : m.wf = true) : (m.write a v).wf = true := by
  unfold Memory.write
  split
  · exact Memory.wf_filter m _ h
  · next hv =>
    exact Memory.wf_insertCell _ a v hv (fun c hc => by simpa using (List.mem_filter.mp hc).2)
      (Memory.wf_filter m _ h)

/-- The cells of a memory after a write are the written one and cells from before. -/
theorem Memory.mem_of_mem_write {c : Nat × Int} {m : Memory} {a : Nat} {v : Int} (h : c ∈ m.write a v) :
    c = (a, v) ∨ c ∈ m := by
  unfold Memory.write at h
  split at h
  · exact .inr (List.mem_filter.mp h).1
  · rcases Memory.mem_insertCell.mp h with h | h
    · exact .inl h
    · exact .inr (List.mem_filter.mp h).1

/-- The addresses of an initial image's cells. -/
theorem Memory.addr_of_mem_ofImage {c : Nat × Int} (image : List Int) (a : Nat)
    (h : c ∈ Memory.ofImage image a) : a ≤ c.1 ∧ c.1 < a + image.length := by
  induction image generalizing a with
  | nil => simp [Memory.ofImage] at h
  | cons v rest ih =>
    rw [List.length_cons]
    by_cases hv : v = Memory.blankWord
    · simp only [Memory.ofImage, hv, if_true] at h
      have := ih (a + 1) h
      omega
    · simp only [Memory.ofImage, hv, if_false, List.mem_cons] at h
      rcases h with rfl | h
      · simp
      · have := ih (a + 1) h
        omega

/-- The initial image is in canonical form. -/
theorem Memory.wf_ofImage (image : List Int) (a : Nat) : (Memory.ofImage image a).wf = true := by
  induction image generalizing a with
  | nil => rfl
  | cons v rest ih =>
    by_cases hv : v = Memory.blankWord
    · simpa [Memory.ofImage, hv] using ih (a + 1)
    · simp only [Memory.ofImage, hv, if_false]
      exact (Memory.wf_cons ..).mpr
        ⟨hv, fun c hc => Nat.lt_of_succ_le (Memory.addr_of_mem_ofImage rest (a + 1) hc).1, ih (a + 1)⟩

/-- Placing words keeps the canonical form. -/
theorem Memory.wf_place (m : Memory) (a : Nat) (ws : List Int) (h : m.wf = true) : (m.place a ws).wf = true := by
  induction ws generalizing m a with
  | nil => exact h
  | cons w rest ih => exact ih _ _ (Memory.wf_write m a w h)

/-- The memory after reset is in canonical form. -/
theorem reset_memory_wf : State.reset.mem.wf = true := rfl

end Sys2Proof.Machine
end

