-- ==== Sys2Proof/Laws/State.lean ====
section
/-! SUPPORT. One lemma per field per state update. -/

namespace Sys2Proof.Machine

@[simp] theorem State.memWrite_mem (s : State) (a : Nat) (v : Int) : (s.memWrite a v).mem = s.mem.write a v := rfl
@[simp] theorem State.memWrite_ip (s : State) (a : Nat) (v : Int) : (s.memWrite a v).ip = s.ip := rfl
@[simp] theorem State.memWrite_rb (s : State) (a : Nat) (v : Int) : (s.memWrite a v).rb = s.rb := rfl
@[simp] theorem State.memWrite_status (s : State) (a : Nat) (v : Int) : (s.memWrite a v).status = s.status := rfl
@[simp] theorem State.memWrite_fault (s : State) (a : Nat) (v : Int) : (s.memWrite a v).fault = s.fault := rfl
@[simp] theorem State.memWrite_input (s : State) (a : Nat) (v : Int) : (s.memWrite a v).input = s.input := rfl
@[simp] theorem State.memWrite_output (s : State) (a : Nat) (v : Int) : (s.memWrite a v).output = s.output := rfl

@[simp] theorem State.setIp_mem (s : State) (n : Nat) : (s.setIp n).mem = s.mem := rfl
@[simp] theorem State.setIp_ip (s : State) (n : Nat) : (s.setIp n).ip = n := rfl
@[simp] theorem State.setIp_rb (s : State) (n : Nat) : (s.setIp n).rb = s.rb := rfl
@[simp] theorem State.setIp_status (s : State) (n : Nat) : (s.setIp n).status = s.status := rfl
@[simp] theorem State.setIp_fault (s : State) (n : Nat) : (s.setIp n).fault = s.fault := rfl
@[simp] theorem State.setIp_input (s : State) (n : Nat) : (s.setIp n).input = s.input := rfl
@[simp] theorem State.setIp_output (s : State) (n : Nat) : (s.setIp n).output = s.output := rfl

@[simp] theorem State.advanceIp_mem (s : State) (n : Nat) : (s.advanceIp n).mem = s.mem := rfl
@[simp] theorem State.advanceIp_ip (s : State) (n : Nat) : (s.advanceIp n).ip = s.ip + n := rfl
@[simp] theorem State.advanceIp_rb (s : State) (n : Nat) : (s.advanceIp n).rb = s.rb := rfl
@[simp] theorem State.advanceIp_status (s : State) (n : Nat) : (s.advanceIp n).status = s.status := rfl
@[simp] theorem State.advanceIp_fault (s : State) (n : Nat) : (s.advanceIp n).fault = s.fault := rfl
@[simp] theorem State.advanceIp_input (s : State) (n : Nat) : (s.advanceIp n).input = s.input := rfl
@[simp] theorem State.advanceIp_output (s : State) (n : Nat) : (s.advanceIp n).output = s.output := rfl

@[simp] theorem State.setRb_mem (s : State) (v : Int) : (s.setRb v).mem = s.mem := rfl
@[simp] theorem State.setRb_ip (s : State) (v : Int) : (s.setRb v).ip = s.ip := rfl
@[simp] theorem State.setRb_rb (s : State) (v : Int) : (s.setRb v).rb = v := rfl
@[simp] theorem State.setRb_status (s : State) (v : Int) : (s.setRb v).status = s.status := rfl
@[simp] theorem State.setRb_fault (s : State) (v : Int) : (s.setRb v).fault = s.fault := rfl
@[simp] theorem State.setRb_input (s : State) (v : Int) : (s.setRb v).input = s.input := rfl
@[simp] theorem State.setRb_output (s : State) (v : Int) : (s.setRb v).output = s.output := rfl

@[simp] theorem State.setStatus_mem (s : State) (v : Status) : (s.setStatus v).mem = s.mem := rfl
@[simp] theorem State.setStatus_ip (s : State) (v : Status) : (s.setStatus v).ip = s.ip := rfl
@[simp] theorem State.setStatus_rb (s : State) (v : Status) : (s.setStatus v).rb = s.rb := rfl
@[simp] theorem State.setStatus_status (s : State) (v : Status) : (s.setStatus v).status = v := rfl
@[simp] theorem State.setStatus_fault (s : State) (v : Status) : (s.setStatus v).fault = s.fault := rfl
@[simp] theorem State.setStatus_input (s : State) (v : Status) : (s.setStatus v).input = s.input := rfl
@[simp] theorem State.setStatus_output (s : State) (v : Status) : (s.setStatus v).output = s.output := rfl

@[simp] theorem State.setInput_mem (s : State) (ws : List Int) : (s.setInput ws).mem = s.mem := rfl
@[simp] theorem State.setInput_ip (s : State) (ws : List Int) : (s.setInput ws).ip = s.ip := rfl
@[simp] theorem State.setInput_rb (s : State) (ws : List Int) : (s.setInput ws).rb = s.rb := rfl
@[simp] theorem State.setInput_status (s : State) (ws : List Int) : (s.setInput ws).status = s.status := rfl
@[simp] theorem State.setInput_fault (s : State) (ws : List Int) : (s.setInput ws).fault = s.fault := rfl
@[simp] theorem State.setInput_input (s : State) (ws : List Int) : (s.setInput ws).input = ws := rfl
@[simp] theorem State.setInput_output (s : State) (ws : List Int) : (s.setInput ws).output = s.output := rfl

@[simp] theorem State.pushOutput_mem (s : State) (v : Int) : (s.pushOutput v).mem = s.mem := rfl
@[simp] theorem State.pushOutput_ip (s : State) (v : Int) : (s.pushOutput v).ip = s.ip := rfl
@[simp] theorem State.pushOutput_rb (s : State) (v : Int) : (s.pushOutput v).rb = s.rb := rfl
@[simp] theorem State.pushOutput_status (s : State) (v : Int) : (s.pushOutput v).status = s.status := rfl
@[simp] theorem State.pushOutput_fault (s : State) (v : Int) : (s.pushOutput v).fault = s.fault := rfl
@[simp] theorem State.pushOutput_input (s : State) (v : Int) : (s.pushOutput v).input = s.input := rfl
@[simp] theorem State.pushOutput_output (s : State) (v : Int) : (s.pushOutput v).output = s.output ++ [v] := rfl

@[simp] theorem State.enterFault_mem (s : State) (f : Cause) : (s.enterFault f).mem = s.mem := rfl
@[simp] theorem State.enterFault_ip (s : State) (f : Cause) : (s.enterFault f).ip = s.ip := rfl
@[simp] theorem State.enterFault_rb (s : State) (f : Cause) : (s.enterFault f).rb = s.rb := rfl
@[simp] theorem State.enterFault_status (s : State) (f : Cause) : (s.enterFault f).status = .faulted := rfl
@[simp] theorem State.enterFault_fault (s : State) (f : Cause) : (s.enterFault f).fault = some { cause := f, faultIp := s.ip } := rfl
@[simp] theorem State.enterFault_input (s : State) (f : Cause) : (s.enterFault f).input = s.input := rfl
@[simp] theorem State.enterFault_output (s : State) (f : Cause) : (s.enterFault f).output = s.output := rfl

end Sys2Proof.Machine
end

