-- ==== Sys2Proof/Laws/Operands.lean ====
section
/-! SUPPORT. One lemma per shared operation of the resolver, and of ending an instruction: everything it can do, in the
terms of Safety.lean. -/

namespace Sys2Proof.Machine

theorem addrMax_hw : Config.hw.addrMax = 18446744073709551615 := rfl

/-- Ending an instruction always gives a next state: the committed one, or the fault transition's. -/
@[simp] theorem commit_ok (s t : State) : commit s (.ok t) = .next t := rfl

@[simp] theorem commit_error (s : State) (f : Cause) : commit s (.error f) = .next (s.enterFault f) := rfl

theorem enterFault_eq_faultedAt (s : State) (f : Cause) : s.enterFault f = faultedAt s f := rfl

/-- Sequencing in the resolver: a fault ends it, a value goes on. -/
@[simp] theorem except_bind_ok {α β : Type} (a : α) (k : α → Except Cause β) : (Except.ok a >>= k) = k a := rfl

@[simp] theorem except_bind_error {α β : Type} (f : Cause) (k : α → Except Cause β) :
    ((Except.error f : Except Cause α) >>= k) = .error f := rfl

@[simp] theorem except_pure {α : Type} (a : α) : (pure a : Except Cause α) = .ok a := rfl

/-- Unbounded words hold every result (00_scope.md R7): OVERFLOW is never raised. -/
@[simp] theorem exactResultOn_hw (op : Opcode) (v : Int) : exactResultOn Config.hw op v = .ok v := rfl

/-- The address checks give the address, or raise its fault (R91 (2)). -/
theorem checkedAddress_eq (kind : AccessKind) (ea : Int) :
    checkedAddressOn Config.hw kind ea =
      match addressFault kind ea with
      | some f => .error f
      | none => .ok ea.toNat := by
  unfold checkedAddressOn addressFault
  by_cases h : ea < 0
  · simp [h]
  · by_cases h' : (Config.hw.addrMax : Int) < ea <;> simp [h, h']

/-- Fetching an operand word gives it, or is ADDRESS_RANGE (R91 (1)). -/
theorem operandWordOn_eq (s : State) (slot : Nat) :
    operandWordOn Config.hw s slot =
      if Config.hw.addrMax < s.ip + 1 + slot then .error (.addressRange .operandWord ((s.ip + 1 + slot : Nat) : Int))
      else .ok (operandWord s slot) := by
  by_cases h : s.ip + 1 + slot ≤ Config.hw.addrMax
  · simp [operandWordOn, operandWord, h]
  · simp only [operandWordOn, h, if_false, not_le.mp h, if_true]

/-- The resolver with intent Read gives the slot's value, or raises the slot's fault (R85, R87, R89, R91). -/
theorem resolveRead_eq (s : State) (slot : Nat) (m : Mode) :
    resolveReadOn Config.hw s slot m =
      match slotFault s slot .read m with
      | some f => .error f
      | none => .ok (readValue s slot m) := by
  unfold resolveReadOn slotFault
  rw [operandWordOn_eq]
  by_cases h : Config.hw.addrMax < s.ip + 1 + slot
  · simp only [h, if_true, except_bind_error]
  · simp only [h, if_false, except_bind_ok, checkedAddress_eq]
    cases m with
    | immediate => rfl
    | position =>
      simp only [reduceCtorEq, if_false, effectiveKind, effectiveAddress]
      cases addressFault .effectiveRead (operandWord s slot) <;> rfl
    | relative =>
      simp only [reduceCtorEq, if_false, effectiveKind, effectiveAddress]
      cases addressFault .effectiveRead (s.rb + operandWord s slot) <;> rfl

/-- The resolver with intent Write gives the slot's destination, or raises the slot's fault (R86, R88, R90, R91). -/
theorem resolveWrite_eq (s : State) (slot : Nat) (m : Mode) :
    resolveWriteOn Config.hw s slot m =
      match slotFault s slot .write m with
      | some f => .error f
      | none => .ok (destination s slot m) := by
  unfold resolveWriteOn slotFault
  rw [operandWordOn_eq]
  by_cases h : Config.hw.addrMax < s.ip + 1 + slot
  · simp only [h, if_true, except_bind_error]
  · simp only [h, if_false, except_bind_ok, checkedAddress_eq]
    cases m <;> rfl

/-- A destination the resolver gives is an address the memory unit accepts (R91). -/
theorem destination_le_addrMax (s : State) (slot : Nat) (m : Mode) (h : slotFault s slot .write m = none) :
    destination s slot m ≤ Config.hw.addrMax := by
  unfold slotFault addressFault at h
  unfold destination
  split_ifs at h
  · exact absurd rfl ‹¬Intent.write = Intent.write›
  · omega

/-! ## What a slot depends on: memory, `ip` and `rb` only -/

/-- Two machines whose operands denote the same: equal memory, `ip` and `rb`. -/
structure SameOperands (s s' : State) : Prop where
  mem : s'.mem = s.mem
  ip : s'.ip = s.ip
  rb : s'.rb = s.rb

theorem operandWord_congr {s s' : State} (h : SameOperands s s') (slot : Nat) :
    operandWord s' slot = operandWord s slot := by
  simp [operandWord, h.mem, h.ip]

theorem effectiveAddress_congr {s s' : State} (h : SameOperands s s') (slot : Nat) (m : Mode) :
    effectiveAddress s' slot m = effectiveAddress s slot m := by
  cases m <;> simp [effectiveAddress, operandWord_congr h, h.rb]

theorem readValue_congr {s s' : State} (h : SameOperands s s') (slot : Nat) (m : Mode) :
    readValue s' slot m = readValue s slot m := by
  cases m <;> simp [readValue, effectiveAddress_congr h, operandWord_congr h, h.mem]

theorem destination_congr {s s' : State} (h : SameOperands s s') (slot : Nat) (m : Mode) :
    destination s' slot m = destination s slot m := by
  simp [destination, effectiveAddress_congr h]

theorem slotFault_congr {s s' : State} (h : SameOperands s s') (slot : Nat) (intent : Intent) (m : Mode) :
    slotFault s' slot intent m = slotFault s slot intent m := by
  simp only [slotFault, effectiveAddress_congr h, h.ip]

theorem operandFault_congr {s s' : State} (h : SameOperands s s') (i : Instr) :
    operandFault s' i = operandFault s i := by
  have : ∀ slots n, firstFaultFrom s' n slots = firstFaultFrom s n slots := by
    intro slots
    induction slots with
    | nil => exact fun _ => rfl
    | cons p rest ih => intro n; simp only [firstFaultFrom, slotFault_congr h, ih]
  exact this _ _

theorem fetchDecode_congr {s s' : State} (h : SameOperands s s') : fetchDecode s' = fetchDecode s := by
  simp [fetchDecode, fetchDecodeOn, h.mem, h.ip]

theorem sameOperands_setStatus (s : State) (v : Status) : SameOperands s (s.setStatus v) := ⟨rfl, rfl, rfl⟩

end Sys2Proof.Machine
end

