-- ==== Sys2Proof/Laws/Exec.lean ====
section
/-! SUPPORT. One lemma per shared form of the instructions: what it answers, in the terms of Safety.lean. -/

namespace Sys2Proof.Machine

/-- The format F4: the first operand fault in slot order, or the result stored and `ip` advanced by 4. -/
theorem threeOperand_eq (result : Int → Int → Int) (m0 m1 m2 : Mode) (s : State) :
    threeOperandOn Config.hw (fun a b => .ok (result a b)) m0 m1 m2 s =
      match firstFaultFrom s 0 [(.read, m0), (.read, m1), (.write, m2)] with
      | some f => .next (s.enterFault f)
      | none => .next ((s.memWrite (destination s 2 m2) (result (readValue s 0 m0) (readValue s 1 m1))).advanceIp 4) := by
  simp only [threeOperandOn, resolveRead_eq, resolveWrite_eq, firstFaultFrom]
  cases slotFault s 0 .read m0 <;> cases slotFault s 1 .read m1 <;> cases slotFault s 2 .write m2 <;> rfl

/-- A conditional jump: the first operand fault, the jump (or its own fault), or `ip` advanced by 3. -/
theorem jumpIf_eq (taken : Int → Bool) (m0 m1 : Mode) (s : State) :
    jumpIfOn Config.hw taken m0 m1 s =
      match firstFaultFrom s 0 [(.read, m0), (.read, m1)] with
      | some f => .next (s.enterFault f)
      | none =>
        if taken (readValue s 0 m0) then
          if readValue s 1 m1 < 0 then .next (s.enterFault (.negativeAddress .jumpTarget (readValue s 1 m1)))
          else .next (s.setIp (readValue s 1 m1).toNat)
        else .next (s.advanceIp 3) := by
  simp only [jumpIfOn, resolveRead_eq, firstFaultFrom, jumpTo]
  cases slotFault s 0 .read m0 <;> cases slotFault s 1 .read m1 <;> try rfl
  simp only [except_bind_ok]
  split
  · split <;> rfl
  · rfl

/-- READ: the operand fault, the suspension, or the front of the input stored. -/
theorem read_eq (m0 : Mode) (s : State) :
    readOn Config.hw m0 s =
      match firstFaultFrom s 0 [(.write, m0)] with
      | some f => .next (s.enterFault f)
      | none =>
        match s.input with
        | [] => .next (s.setStatus .suspendedForInput)
        | v :: rest => .next (((s.setInput rest).memWrite (destination s 0 m0) v).advanceIp 2) := by
  simp only [readOn, resolveWrite_eq, firstFaultFrom]
  cases slotFault s 0 .write m0
  · simp only [except_bind_ok]
    cases s.input <;> rfl
  · rfl

/-- WRITE: the operand fault, or the value appended to the output. -/
theorem write_eq (m0 : Mode) (s : State) :
    writeOn Config.hw m0 s =
      match firstFaultFrom s 0 [(.read, m0)] with
      | some f => .next (s.enterFault f)
      | none => .next ((s.pushOutput (readValue s 0 m0)).advanceIp 2) := by
  simp only [writeOn, resolveRead_eq, firstFaultFrom]
  cases slotFault s 0 .read m0 <;> rfl

/-- ARB: the operand fault, or the value added to `rb`. -/
theorem arb_eq (m0 : Mode) (s : State) :
    arbOn Config.hw m0 s =
      match firstFaultFrom s 0 [(.read, m0)] with
      | some f => .next (s.enterFault f)
      | none => .next ((s.setRb (s.rb + readValue s 0 m0)).advanceIp 2) := by
  simp only [arbOn, resolveRead_eq, firstFaultFrom, exactResultOn_hw]
  cases slotFault s 0 .read m0 <;> rfl

/-- The state an instruction leaves when its operands resolve, in the terms of Safety.lean. -/
def effect (s : State) : Instr → State
  | .add m0 m1 m2 => (s.memWrite (destination s 2 m2) (readValue s 0 m0 + readValue s 1 m1)).advanceIp 4
  | .mul m0 m1 m2 => (s.memWrite (destination s 2 m2) (readValue s 0 m0 * readValue s 1 m1)).advanceIp 4
  | .read m0 =>
    match s.input with
    | [] => s.setStatus .suspendedForInput
    | v :: rest => ((s.setInput rest).memWrite (destination s 0 m0) v).advanceIp 2
  | .write m0 => (s.pushOutput (readValue s 0 m0)).advanceIp 2
  | .jnz m0 m1 =>
    if readValue s 0 m0 = 0 then s.advanceIp 3
    else if readValue s 1 m1 < 0 then s.enterFault (.negativeAddress .jumpTarget (readValue s 1 m1))
    else s.setIp (readValue s 1 m1).toNat
  | .jz m0 m1 =>
    if readValue s 0 m0 = 0 then
      if readValue s 1 m1 < 0 then s.enterFault (.negativeAddress .jumpTarget (readValue s 1 m1))
      else s.setIp (readValue s 1 m1).toNat
    else s.advanceIp 3
  | .lt m0 m1 m2 =>
    (s.memWrite (destination s 2 m2) (if readValue s 0 m0 < readValue s 1 m1 then 1 else 0)).advanceIp 4
  | .eq m0 m1 m2 =>
    (s.memWrite (destination s 2 m2) (if readValue s 0 m0 = readValue s 1 m1 then 1 else 0)).advanceIp 4
  | .arb m0 => (s.setRb (s.rb + readValue s 0 m0)).advanceIp 2
  | .halt => s.setStatus .halted

theorem truthWord_decide (p : Prop) [Decidable p] : truthWord (decide p) = if p then 1 else 0 := by
  by_cases h : p <;> simp [truthWord, h]

/-- What an instruction can do, once for all ten: the first operand fault entered, or its effect. -/
theorem exec_eq (i : Instr) (s : State) :
    exec i s =
      match operandFault s i with
      | some f => .next (s.enterFault f)
      | none => .next (effect s i) := by
  cases i with
  | add m0 m1 m2 => exact threeOperand_eq (· + ·) m0 m1 m2 s
  | mul m0 m1 m2 => exact threeOperand_eq (· * ·) m0 m1 m2 s
  | read m0 =>
    refine (read_eq m0 s).trans ?_
    simp only [operandFault, Instr.slots, Instr.opcode, Instr.modes, Opcode.intents, List.zip_cons_cons, List.zip_nil_left, effect]
    split
    · rfl
    · cases s.input <;> rfl
  | write m0 => exact write_eq m0 s
  | jnz m0 m1 =>
    refine (jumpIf_eq _ m0 m1 s).trans ?_
    simp only [operandFault, Instr.slots, Instr.opcode, Instr.modes, Opcode.intents, List.zip_cons_cons, List.zip_nil_left, effect,
      decide_eq_true_eq]
    split
    · rfl
    · by_cases h : readValue s 0 m0 = 0 <;> by_cases h' : readValue s 1 m1 < 0 <;> simp [h, h']
  | jz m0 m1 =>
    refine (jumpIf_eq _ m0 m1 s).trans ?_
    simp only [operandFault, Instr.slots, Instr.opcode, Instr.modes, Opcode.intents, List.zip_cons_cons, List.zip_nil_left, effect,
      decide_eq_true_eq]
    split
    · rfl
    · by_cases h : readValue s 0 m0 = 0 <;> by_cases h' : readValue s 1 m1 < 0 <;> simp [h, h']
  | lt m0 m1 m2 =>
    refine (threeOperand_eq (fun a b => truthWord (decide (a < b))) m0 m1 m2 s).trans ?_
    simp only [truthWord_decide]
    rfl
  | eq m0 m1 m2 =>
    refine (threeOperand_eq (fun a b => truthWord (decide (a = b))) m0 m1 m2 s).trans ?_
    simp only [truthWord_decide]
    rfl
  | arb m0 => exact arb_eq m0 s
  | halt => rfl

/-- A step of a machine that runs: the instruction at `ip`, or the fault of fetching or decoding it. -/
theorem step_running (s : State) (h : s.status = .running) :
    step s = match fetchDecode s with
      | .ok i => exec i s
      | .error f => .next (s.enterFault f) := by
  simp only [step, enterRun, h, engineStep]
  rfl

/-- A step of a suspended machine: the run call makes it Running first. -/
theorem step_suspended (s : State) (h : s.status = .suspendedForInput) :
    step s = step (s.setStatus .running) := by
  simp [step, enterRun, h]

/-- Neither fetch nor decode looks at the status. -/
@[simp] theorem fetchDecode_setStatus (s : State) (v : Status) : fetchDecode (s.setStatus v) = fetchDecode s := rfl

/-- What a step can do: a machine that runs is set Running and then takes the fault of fetch or decode, the first operand
fault, or the instruction's effect; any other machine stays. -/
theorem step_eq (s : State) :
    step s =
      match s.status with
      | .halted => .next s
      | .faulted => .next s
      | .running =>
        match fetchDecode s with
        | .error f => .next (s.enterFault f)
        | .ok i => exec i s
      | .suspendedForInput =>
        match fetchDecode s with
        | .error f => .next (s.enterFault f)
        | .ok i => exec i (s.setStatus .running) := by
  cases h : s.status with
  | running => rw [step_running s h]; cases fetchDecode s <;> rfl
  | suspendedForInput =>
    rw [step_suspended s h, step_running _ rfl, fetchDecode_setStatus]
    cases fetchDecode s <;> rfl
  | halted => simp [step, enterRun, h]
  | faulted => simp [step, enterRun, h]

/-- A step of a machine that a run call runs. -/
theorem step_of_live {s : State} (hl : live s) :
    step s =
      match fetchDecode s with
      | .error f => .next (s.enterFault f)
      | .ok i => exec i (s.setStatus .running) := by
  rw [step_eq]
  rcases hl with hl | hl
  · have : s.setStatus .running = s := by cases s; simp_all [State.setStatus]
    simp only [hl, this]
  · simp only [hl]

/-- A Halted or Faulted machine stays. -/
theorem step_of_not_live {s : State} (hl : ¬ live s) : step s = .next s := by
  rw [step_eq]
  cases hs : s.status <;> simp [live, hs] at hl ⊢

/-- The inversion of a step: what led to the state a step answers. -/
theorem step_cases {s t : State} (h : step s = .next t) :
    (¬ live s ∧ t = s) ∨
    (live s ∧ ∃ f, fetchDecode s = .error f ∧ t = s.enterFault f) ∨
    (live s ∧ ∃ i, fetchDecode s = .ok i ∧ ∃ f, operandFault s i = some f ∧ t = s.enterFault f) ∨
    (live s ∧ ∃ i, fetchDecode s = .ok i ∧ operandFault s i = none ∧ t = effect (s.setStatus .running) i) := by
  by_cases hl : live s
  · rw [step_of_live hl] at h
    cases hf : fetchDecode s with
    | error f =>
      rw [hf] at h
      exact .inr (.inl ⟨hl, f, rfl, by cases h; rfl⟩)
    | ok i =>
      rw [hf] at h
      dsimp only at h
      rw [exec_eq, operandFault_congr (sameOperands_setStatus s .running)] at h
      cases ho : operandFault s i with
      | some f =>
        rw [ho] at h
        exact .inr (.inr (.inl ⟨hl, i, rfl, f, ho, by cases h; rfl⟩))
      | none =>
        rw [ho] at h
        exact .inr (.inr (.inr ⟨hl, i, rfl, ho, by cases h; rfl⟩))
  · rw [step_of_not_live hl] at h
    exact .inl ⟨hl, by cases h; rfl⟩

end Sys2Proof.Machine
end

