-- ==== Sys2Proof/Laws/PerInstr.lean ====
section
/-! SUPPORT. Per-instruction families: for every constructor of Instr, one lemma. -/

namespace Sys2Proof.Laws.Canonical

/-- The canonical word of an instruction decodes back to it and has no digit above its own mode digits
(30_encoding.md R74). -/
def Statement (i : Instr) : Prop :=
  decode (encode i) = .ok i ∧ encodeNat i < 10 ^ (i.opcode.operandCount + 2)

theorem add (m0 m1 m2 : Mode) : Statement (.add m0 m1 m2) := by
  cases m0 <;> cases m1 <;> cases m2 <;> exact ⟨rfl, by decide⟩

theorem mul (m0 m1 m2 : Mode) : Statement (.mul m0 m1 m2) := by
  cases m0 <;> cases m1 <;> cases m2 <;> exact ⟨rfl, by decide⟩

theorem read (m0 : Mode) : Statement (.read m0) := by
  cases m0 <;> exact ⟨rfl, by decide⟩

theorem write (m0 : Mode) : Statement (.write m0) := by
  cases m0 <;> exact ⟨rfl, by decide⟩

theorem jnz (m0 m1 : Mode) : Statement (.jnz m0 m1) := by
  cases m0 <;> cases m1 <;> exact ⟨rfl, by decide⟩

theorem jz (m0 m1 : Mode) : Statement (.jz m0 m1) := by
  cases m0 <;> cases m1 <;> exact ⟨rfl, by decide⟩

theorem lt (m0 m1 m2 : Mode) : Statement (.lt m0 m1 m2) := by
  cases m0 <;> cases m1 <;> cases m2 <;> exact ⟨rfl, by decide⟩

theorem eq (m0 m1 m2 : Mode) : Statement (.eq m0 m1 m2) := by
  cases m0 <;> cases m1 <;> cases m2 <;> exact ⟨rfl, by decide⟩

theorem arb (m0 : Mode) : Statement (.arb m0) := by
  cases m0 <;> exact ⟨rfl, by decide⟩

theorem halt : Statement .halt := ⟨rfl, by decide⟩

end Sys2Proof.Laws.Canonical
end

