-- ==== Sys2Proof/Tests/Slice0.lean ====
section
/-! SUPPORT. The model's own tests: words written out digit by digit from spec/30_encoding.md R60 and R66, the
well-formedness checks, at most two single steps per instruction with results from spec/95_test_vectors.md, and for every
statement with hypotheses a state and operands that meet them. -/

namespace Sys2Proof.Tests

open Sys2Proof Sys2Proof.Machine

/-! ## Decoding (95_test_vectors.md section 2; the digits are C B A OP, most significant first) -/

theorem test_decode_add_21101 : decode 21101 = .ok (.add .immediate .immediate .relative) := rfl
theorem test_decode_add_ignores_digit_5 : decode 300001 = .ok (.add .position .position .position) := rfl
theorem test_decode_mul_1002 : decode 1002 = .ok (.mul .position .immediate .position) := rfl
theorem test_decode_read_203 : decode 203 = .ok (.read .relative) := rfl
theorem test_decode_write_104 : decode 104 = .ok (.write .immediate) := rfl
theorem test_decode_jnz_1105 : decode 1105 = .ok (.jnz .immediate .immediate) := rfl
theorem test_decode_jz_1206 : decode 1206 = .ok (.jz .relative .immediate) := rfl
theorem test_decode_lt_21207 : decode 21207 = .ok (.lt .relative .immediate .relative) := rfl
theorem test_decode_eq_1008 : decode 1008 = .ok (.eq .position .immediate .position) := rfl
theorem test_decode_arb_22209 : decode 22209 = .ok (.arb .relative) := rfl
theorem test_decode_halt_12399 : decode 12399 = .ok .halt := rfl
theorem test_decode_immediate_write_slot : decode 11101 = .ok (.add .immediate .immediate .immediate) := rfl
theorem test_decode_rejects_0 : decode 0 = .error (.opcode 0) := rfl
theorem test_decode_rejects_98 : decode 98 = .error (.opcode 98) := rfl
theorem test_decode_rejects_minus_99 : decode (-99) = .error (.opcode (-99)) := rfl
theorem test_decode_rejects_mode_301 : decode 301 = .error (.mode 0 3) := rfl
theorem test_decode_rejects_mode_30001 : decode 30001 = .error (.mode 2 3) := rfl
theorem test_decode_rejects_mode_904 : decode 904 = .error (.mode 0 9) := rfl
/-- R77's example: `MUL [4], #3, [4]` is the words 1002, 4, 3, 4. -/
theorem test_encode_words_mul : encodeWords (.mul .position .immediate .position) [4, 3, 4] = [1002, 4, 3, 4] := rfl
/-- R78: `JMP #7` is the words 1105, 1, 7. -/
theorem test_encode_words_jmp : jmpWords ⟨.immediate, 7⟩ = [1105, 1, 7] := rfl
theorem test_encode_words_mov : movWords ⟨.position, 5⟩ ⟨.relative, -2⟩ = [21001, 5, 0, -2] := rfl
theorem test_table_word_write : decodeTableWord 8 4 = some (.write .position) := rfl

/-! ## Well-formedness: one ill-formed term per check (R69) -/

theorem test_wf_refuses_add : (Instr.add .position .relative .immediate).wellFormed = false := rfl
theorem test_wf_refuses_mul : (Instr.mul .position .relative .immediate).wellFormed = false := rfl
theorem test_wf_refuses_read : (Instr.read .immediate).wellFormed = false := rfl
theorem test_wf_refuses_lt : (Instr.lt .position .relative .immediate).wellFormed = false := rfl
theorem test_wf_refuses_eq : (Instr.eq .position .relative .immediate).wellFormed = false := rfl
theorem test_wf_accepts_immediate_reads : (Instr.add .immediate .immediate .relative).wellFormed = true := rfl

/-! ## One step of each instruction (95_test_vectors.md sections 1 and 4) -/

/-- The state a step answers. -/
def after : Result → Option State
  | .next t => some t
  | .fault _ => none
  | .refused _ => none

/-- The word at an address, `ip` and the status after one step of a machine. -/
def glance (s : State) (a : Nat) : Option (Int × Nat × Status) :=
  (after (step s)).map fun t => (t.mem.read a, t.ip, t.status)

theorem test_add_round_trip : glance (construct [1, 9, 10, 3, 2, 3, 11, 0, 99, 30, 40, 50] []) 3
    = some (70, 4, .running) := by decide
theorem test_add_no_wrap : glance (construct [1101, 9223372036854775808, 9223372036854775808, 5, 99] []) 5
    = some (18446744073709551616, 4, .running) := by decide
theorem test_mul_large : glance (construct [1102, 34915192, 34915192, 7, 4, 7, 99, 0] []) 7
    = some (1219070632396864, 4, .running) := by decide
theorem test_mul_signs : glance (construct [1102, -3, -4, 5, 99] []) 5 = some (12, 4, .running) := by decide
theorem test_lt_signed : glance (construct [1107, -5, 3, 5, 99] []) 5 = some (1, 4, .running) := by decide
theorem test_lt_equal : glance (construct [1107, 3, 3, 5, 99, 8] []) 5 = some (0, 4, .running) := by decide
theorem test_eq_equal : glance (construct [1108, 8, 8, 5, 99] []) 5 = some (1, 4, .running) := by decide
theorem test_eq_sign : glance (construct [1108, 8, -8, 5, 99, 8] []) 5 = some (0, 4, .running) := by decide
theorem test_read_own_operand_word : glance (construct [3, 1, 99] [99]) 1 = some (99, 2, .running) := by decide
theorem test_read_suspends : glance (construct [3, 0, 99] []) 0 = some (3, 0, .suspendedForInput) := by decide
theorem test_write_position : (after (step (construct [4, 3, 99, 12345678901234567890] []))).map State.output
    = some [12345678901234567890] := by decide
theorem test_write_immediate : (after (step (construct [104, -3, 99] []))).map State.output = some [-3] := by decide
theorem test_jnz_negative_takes : glance (construct [1105, -1, 4, 0, 99] []) 4 = some (99, 4, .running) := by decide
theorem test_jnz_negative_target : (after (step (construct [1105, 1, -5] []))).map State.fault
    = some (some ⟨.negativeAddress .jumpTarget (-5), 0⟩) := by decide
theorem test_jz_taken : glance (construct [1106, 0, 4, 0, 99] []) 4 = some (99, 4, .running) := by decide
theorem test_jz_not_taken : glance (construct [1106, 7, 4, 99, 99] []) 3 = some (99, 3, .running) := by decide
theorem test_arb_negative : (after (step (construct [109, -5, 99] []))).map State.rb = some (-5) := by decide
/-- `109,5,209,-3,99` at its second instruction: the operand is read with the old `rb`. -/
theorem test_arb_old_base : (after (step { construct [109, 5, 209, -3, 99] [] with ip := 2, rb := 5 })).map State.rb
    = some 214 := by decide
theorem test_halt_keeps_ip : glance (construct [399] []) 0 = some (399, 0, .halted) := by decide

/-! ## Faults, codes, the load line, the host's questions -/

theorem test_fault_before_suspension : (after (step (construct [103, 0, 99] []))).map State.causeCode = some 3 := by decide
theorem test_fault_slot_order : (after (step (construct [2201, -1, -2, 0, 99] []))).map State.fault
    = some (some ⟨.negativeAddress .effectiveRead (-1), 0⟩) := by decide
theorem test_fault_record_code_of_no_fault : State.reset.causeCode = 0 := rfl
theorem test_reset_first_step_faults : (after (step State.reset)).map State.fault
    = some (some ⟨.decodeOpcode 0, 0⟩) := by decide
theorem test_load_line : parseImage [' ', '1', ',', '-', '2', ',', '+', '3', '\n'] = some [1, -2, 3] := by decide
theorem test_load_line_refuses_inner_space : parseImage ['1', ',', ' ', '2'] = none := by decide
theorem test_load_line_refuses_empty_field : parseImage ['1', ',', ',', '2'] = none := by decide
theorem test_fetch_word_halts : (after (step (State.reset.withFetchWord 8 99))).map State.status = some .halted := by decide

/-! ## Witnesses: states and operands that meet the hypotheses of the statements -/

/-- Every slot of `mem[5] + mem[6]` to `mem[7]` resolves. -/
def sumMachine : State := construct [1, 5, 6, 7, 99, 2, 3] []
/-- A READ to address 5 with two words of input. -/
def readMachine : State := construct [3, 5, 99] [7, 8]
/-- The same with no input. -/
def hungryMachine : State := construct [3, 5, 99] []
/-- The machine suspended at its READ. -/
def suspendedMachine : State := { hungryMachine with status := .suspendedForInput }
/-- A JNZ with the condition and the target given. -/
def jnzMachine (a b : Int) : State := construct [1105, a, b] []
/-- A JZ with the condition and the target given. -/
def jzMachine (a b : Int) : State := construct [1106, a, b] []
/-- A machine stopped at `ip` in a memory of one cell. -/
def machineAt (ip a : Nat) (v rb : Int) : State := { State.reset with mem := [(a, v)], ip := ip, rb := rb }

theorem witness_AddStoresTheExactSum : operandFault sumMachine (.add .position .position .position) = none ∧
    slotFault sumMachine 0 .read .position = none ∧ slotFault sumMachine 1 .read .position = none ∧
    sumMachine.ip + 3 ≤ 2 ^ 64 - 1 := by decide
theorem witness_MulStoresTheExactProduct : operandFault sumMachine (.mul .position .immediate .position) = none ∧
    slotFault sumMachine 0 .read .position = none ∧ slotFault sumMachine 1 .read .immediate = none ∧
    sumMachine.ip + 3 ≤ 2 ^ 64 - 1 := by decide
theorem witness_LtStoresOneIfLessElseZero : operandFault sumMachine (.lt .relative .position .position) = none ∧
    slotFault sumMachine 0 .read .relative = none ∧ slotFault sumMachine 1 .read .position = none ∧
    sumMachine.ip + 3 ≤ 2 ^ 64 - 1 := by decide
theorem witness_EqStoresOneIfEqualElseZero : operandFault sumMachine (.eq .immediate .immediate .relative) = none ∧
    slotFault sumMachine 0 .read .immediate = none ∧ slotFault sumMachine 1 .read .immediate = none ∧
    sumMachine.ip + 3 ≤ 2 ^ 64 - 1 := by decide
theorem witness_ReadStoresFrontInputOrSuspends_input : operandFault readMachine (.read .position) = none ∧
    readMachine.input = [7, 8] := by decide
theorem witness_ReadStoresFrontInputOrSuspends_empty : operandFault hungryMachine (.read .relative) = none ∧
    hungryMachine.input = [] := by decide
theorem witness_ReadStoresFrontInputOrSuspends_immediate : (machineAt (2 ^ 64 - 2) 0 1 0).ip + 1 ≤ 2 ^ 64 - 1 := by decide
theorem witness_WriteAppendsTheValueToOutput : operandFault sumMachine (.write .position) = none := by decide
theorem witness_JnzJumpsIfNotZero_taken : operandFault (jnzMachine 1 0) (.jnz .immediate .immediate) = none ∧
    readValue (jnzMachine 1 0) 0 .immediate ≠ 0 ∧ 0 ≤ readValue (jnzMachine 1 0) 1 .immediate := by decide
theorem witness_JnzJumpsIfNotZero_not_taken : operandFault (jnzMachine 0 (-5)) (.jnz .immediate .immediate) = none ∧
    readValue (jnzMachine 0 (-5)) 0 .immediate = 0 := by decide
theorem witness_JnzJumpsIfNotZero_negative : operandFault (jnzMachine 1 (-1)) (.jnz .immediate .immediate) = none ∧
    readValue (jnzMachine 1 (-1)) 0 .immediate ≠ 0 ∧ readValue (jnzMachine 1 (-1)) 1 .immediate < 0 := by decide
theorem witness_JzJumpsIfZero_taken : operandFault (jzMachine 0 0) (.jz .immediate .immediate) = none ∧
    readValue (jzMachine 0 0) 0 .immediate = 0 ∧ 0 ≤ readValue (jzMachine 0 0) 1 .immediate := by decide
theorem witness_JzJumpsIfZero_not_taken : operandFault (jzMachine (-1) (-5)) (.jz .immediate .immediate) = none ∧
    readValue (jzMachine (-1) (-5)) 0 .immediate ≠ 0 := by decide
theorem witness_JzJumpsIfZero_negative : operandFault (jzMachine 0 (-1)) (.jz .immediate .immediate) = none ∧
    readValue (jzMachine 0 (-1)) 0 .immediate = 0 ∧ readValue (jzMachine 0 (-1)) 1 .immediate < 0 := by decide
theorem witness_ArbAloneAddsToTheRelativeBase : operandFault sumMachine (.arb .position) = none ∧
    ∃ t, exec .halt sumMachine = .next t := ⟨by decide, _, rfl⟩

theorem witness_CanonicalMemoriesReadingAlikeAreEqual :
    Memory.wf [(3, 1)] = true ∧ Memory.wf (Memory.write [] 3 1) = true ∧
    ∀ a, Memory.read [(3, 1)] a = Memory.read (Memory.write [] 3 1) a := ⟨rfl, rfl, fun _ => rfl⟩
/-- At the top of the address space, with the operand word 0 and `rb` at the greatest address. -/
theorem witness_ResolverFollowsModeAndIntent_position :
    (machineAt (2 ^ 64 - 2) 0 1 0).ip + 1 + 0 ≤ 2 ^ 64 - 1 ∧
    (machineAt (2 ^ 64 - 2) 0 1 0).mem.read ((machineAt (2 ^ 64 - 2) 0 1 0).ip + 1 + 0) = 0 ∧
    (0 : Int) ≤ 0 ∧ (0 : Int) ≤ 2 ^ 64 - 1 := by decide
theorem witness_ResolverFollowsModeAndIntent_relative :
    (machineAt 0 1 (-1) (2 ^ 64)).ip + 1 + 0 ≤ 2 ^ 64 - 1 ∧
    (machineAt 0 1 (-1) (2 ^ 64)).mem.read ((machineAt 0 1 (-1) (2 ^ 64)).ip + 1 + 0) = -1 ∧
    0 ≤ (machineAt 0 1 (-1) (2 ^ 64)).rb + -1 ∧ (machineAt 0 1 (-1) (2 ^ 64)).rb + -1 ≤ 2 ^ 64 - 1 := by decide
theorem witness_ResolverChecksAddressesInOrder_word : 2 ^ 64 - 1 < (machineAt (2 ^ 64 - 1) 0 1 0).ip + 1 + 0 := by decide
theorem witness_ResolverChecksAddressesInOrder_negative :
    (machineAt 0 1 (-1) 0).ip + 1 + 0 ≤ 2 ^ 64 - 1 ∧
    (machineAt 0 1 (-1) 0).mem.read ((machineAt 0 1 (-1) 0).ip + 1 + 0) = -1 ∧ (-1 : Int) < 0 := by decide
theorem witness_ResolverChecksAddressesInOrder_above :
    (machineAt 0 1 1 (2 ^ 64 - 1)).ip + 1 + 0 ≤ 2 ^ 64 - 1 ∧
    (machineAt 0 1 1 (2 ^ 64 - 1)).mem.read ((machineAt 0 1 1 (2 ^ 64 - 1)).ip + 1 + 0) = 1 ∧
    (2 ^ 64 - 1 : Int) < (machineAt 0 1 1 (2 ^ 64 - 1)).rb + 1 := by decide

theorem witness_FirstOperandFaultIsEnteredBeforeAnyEffect :
    operandFault hungryMachine (.read .immediate) = some (.writeMode 0) := by decide
theorem witness_IllFormedInstructionsDecodeAndFault : (Instr.read .immediate).wellFormed = false := rfl
theorem witness_FaultingStepCommitsNothing : (construct [103, 0] [5]).status ≠ .faulted ∧
    ∃ t, step (construct [103, 0] [5]) = .next t ∧ t.status = .faulted := ⟨by decide, _, rfl, rfl⟩
theorem witness_StepFaultsExactlyWhenSomeCheckFails : live (jnzMachine 1 (-1)) ∧
    ∃ t, step (jnzMachine 1 (-1)) = .next t := ⟨.inl rfl, _, rfl⟩
theorem witness_StepRunsTheDecodedInstruction : (suspendedMachine.status = .running ∨
    suspendedMachine.status = .suspendedForInput) ∧ suspendedMachine.ip ≤ 2 ^ 64 - 1 ∧
    decode (suspendedMachine.mem.read suspendedMachine.ip) = .ok (.read .position) := ⟨.inr rfl, by decide, rfl⟩
theorem witness_FetchAndDecodeFaultsAreEntered_fetch : (machineAt (2 ^ 64) 0 1 0).status = .running ∧
    2 ^ 64 - 1 < (machineAt (2 ^ 64) 0 1 0).ip := by decide
theorem witness_FetchAndDecodeFaultsAreEntered_opcode : (machineAt (2 ^ 64 - 1) 0 1 0).status = .running ∧
    (machineAt (2 ^ 64 - 1) 0 1 0).ip ≤ 2 ^ 64 - 1 ∧
    decode ((machineAt (2 ^ 64 - 1) 0 1 0).mem.read (machineAt (2 ^ 64 - 1) 0 1 0).ip) = .error (.opcode 0) :=
  ⟨rfl, by decide, rfl⟩
theorem witness_FetchAndDecodeFaultsAreEntered_mode : (construct [301] []).status = .running ∧
    (construct [301] []).ip ≤ 2 ^ 64 - 1 ∧
    decode ((construct [301] []).mem.read (construct [301] []).ip) = .error (.mode 0 3) := ⟨rfl, by decide, rfl⟩
theorem witness_UnsupportedOpcodesFault_zero : (construct [100] []).status = .running ∧ (construct [100] []).ip ≤ 2 ^ 64 - 1 ∧
    (construct [100] []).mem.read 0 = ((100 : Nat) : Int) ∧ 100 % 100 = 0 := by decide
theorem witness_UnsupportedOpcodesFault_least : (construct [10] []).mem.read 0 = ((10 : Nat) : Int) ∧
    10 ≤ 10 % 100 ∧ 10 % 100 ≤ 98 := by decide
theorem witness_UnsupportedOpcodesFault_greatest : (construct [98] []).mem.read 0 = ((98 : Nat) : Int) ∧
    10 ≤ 98 % 100 ∧ 98 % 100 ≤ 98 := by decide
theorem witness_HaltedAndFaultedMachinesNeverChange : ({ State.reset with status := .halted } : State).status = .halted ∧
    ({ State.reset with status := .faulted } : State).status = .faulted := ⟨rfl, rfl⟩

theorem witness_FrameOfThreeOperandInstructions : operandFault sumMachine (.add .position .position .position) = none ∧
    operandFault sumMachine (.add .position .position .immediate) ≠ none ∧
    (∃ t, exec (.add .position .position .position) sumMachine = .next t) ∧
    resolveWriteOn Config.hw sumMachine 2 .position ≠ .ok 6 :=
  ⟨by decide, by decide, ⟨_, rfl⟩, by rw [show resolveWriteOn Config.hw sumMachine 2 .position = .ok 7 from rfl]; simp⟩
theorem witness_FrameOfRead : (∃ t, exec (.read .position) hungryMachine = .next t) ∧ hungryMachine.input = [] ∧
    operandFault hungryMachine (.read .immediate) ≠ none ∧ operandFault readMachine (.read .position) = none ∧
    readMachine.input ≠ [] := ⟨⟨_, rfl⟩, rfl, by decide, by decide, by decide⟩
theorem witness_FrameOfInstructionsThatStoreNothing : (∃ t, exec (.jnz .immediate .immediate) (jnzMachine 1 0) = .next t) ∧
    operandFault (jnzMachine 1 0) (.jnz .immediate .immediate) = none ∧
    ¬ jumpsBelowZero (jnzMachine 1 0) (.jnz .immediate .immediate) := by
  refine ⟨⟨_, rfl⟩, by decide, ?_⟩
  show ¬ (readValue (jnzMachine 1 0) 0 .immediate ≠ 0 ∧ readValue (jnzMachine 1 0) 1 .immediate < 0)
  decide

theorem witness_OnlyArbChangesTheRelativeBase : ∃ t, step (construct [109, -5] []) = .next t ∧
    t.rb ≠ (construct [109, -5] []).rb := ⟨_, rfl, by decide⟩
theorem witness_QueuesAreFifoAndValuesPassUnchanged : ∃ t, step readMachine = .next t := ⟨_, rfl⟩
theorem witness_OnlyTheWriteSlotsDestinationChanges : ∃ t, step sumMachine = .next t ∧
    t.mem.read 7 ≠ sumMachine.mem.read 7 := ⟨_, rfl, by decide⟩
theorem witness_HaltAndReadAloneStopARunningMachine : live hungryMachine ∧ ∃ t, step hungryMachine = .next t :=
  ⟨.inl rfl, _, rfl⟩
theorem witness_NextIpIsWidthOrJumpTarget : ∃ t, step (jnzMachine 1 0) = .next t ∧ t.status = .running := ⟨_, rfl, rfl⟩
/-- 95_test_vectors.md: `1101,1,1,4,0` stores the word 2 at address 4, the next instruction's word. -/
theorem witness_StoredWordIsTheNextInstructionFetched : (construct [1101, 1, 1, 4, 0] []).status = .running ∧
    fetchDecode (construct [1101, 1, 1, 4, 0] []) = .ok (.add .immediate .immediate .position) ∧
    operandFault (construct [1101, 1, 1, 4, 0] []) (.add .immediate .immediate .position) = none ∧
    destination (construct [1101, 1, 1, 4, 0] []) 2 .position = (construct [1101, 1, 1, 4, 0] []).ip + 4 ∧
    decode (readValue (construct [1101, 1, 1, 4, 0] []) 0 .immediate +
      readValue (construct [1101, 1, 1, 4, 0] []) 1 .immediate) = .ok (.mul .position .position .position) ∧
    ∃ t, step (construct [1101, 1, 1, 4, 0] []) = .next t := ⟨rfl, rfl, by decide, by decide, rfl, _, rfl⟩
theorem witness_EarlierOutputNeverInfluencesAStep : ∃ t, step (construct [104, 7] []) = .next t := ⟨_, rfl⟩
theorem witness_LaterInputNeverInfluencesAStep : ∃ t, step readMachine = .next t ∧ t.status ≠ .suspendedForInput :=
  ⟨_, rfl, by decide⟩
theorem witness_FaultRecordIsNeverRead : sumMachine.status = .running ∧ ∃ t, step sumMachine = .next t ∧
    t.status ≠ .faulted := ⟨rfl, _, rfl, by decide⟩

theorem witness_SuspendedReadIsRetriedNotSkipped : hungryMachine.status = .running ∧
    fetchDecode hungryMachine = .ok (.read .position) ∧
    ∃ t, step hungryMachine = .next t ∧ t.status = .suspendedForInput := ⟨rfl, rfl, _, rfl, rfl⟩
theorem witness_RunCallEndsOnlyWhenNotRunning : ∃ t, runCall 1 hungryMachine = some t := ⟨_, rfl⟩
theorem witness_MoreFuelGivesTheSameRunCall : ∃ t, runCall 1 hungryMachine = some t := ⟨_, rfl⟩
theorem witness_FeedingAfterSuspensionEqualsFeedingUpFront : ∃ t u, runCall 1 hungryMachine = some t ∧
    t.status = .suspendedForInput ∧ runCall 2 (appendInput t [7]) = some u := ⟨_, _, rfl, rfl, rfl⟩
theorem witness_LoadedImageHasOneWordPerField : parseImage ['9', '9'] = some [99] := by decide

/-- The halting machine of one word has the invariant. -/
theorem witness_EveryStepKeepsTheInvariantOfTheMachine : (construct [99] []).Inv ∧
    ∃ t, step (construct [99] []) = .next t where
  left :=
    { memoryCanonical := rfl
      memoryInRange := by decide
      faultRecorded := by decide
      faultPrecise := by simp [construct, State.reset]
      suspendedAtRead := by simp [construct, State.reset]
      haltedAtHalt := by simp [construct, State.reset] }
  right := ⟨_, rfl⟩
theorem witness_HostActionsKeepTheInvariantOfTheMachine : (construct [99] []).Inv ∧
    ∃ t, hostAct (construct [99] []) (.run 1) = some t :=
  ⟨witness_EveryStepKeepsTheInvariantOfTheMachine.1, _, rfl⟩
theorem witness_ConstructedMachinesHaveTheInvariant : ([1, 0, 0, 0, 99] : List Int).length ≤ 2 ^ 64 := by decide

/-- A revision with ADD and HALT and Position mode only. -/
def smallRevision : Config := { Config.hw with enabledOpcodes := [.add, .halt], enabledModes := [.position] }
theorem witness_DisabledOpcodesAndModesFault_opcode : (construct [2] []).status = .running ∧
    (construct [2] []).ip ≤ smallRevision.addrMax ∧ (construct [2] []).mem.read 0 = ((2 : Nat) : Int) ∧
    Opcode.mul.code = 2 % 100 ∧ Opcode.mul ∉ smallRevision.enabledOpcodes := by decide
theorem witness_DisabledOpcodesAndModesFault_mode : (construct [1001] []).mem.read 0 = ((1001 : Nat) : Int) ∧
    Opcode.add.code = 1001 % 100 ∧ Opcode.add ∈ smallRevision.enabledOpcodes ∧ 1 < Opcode.add.operandCount ∧
    (∀ m : Mode, m.digit = 1001 / 10 ^ (1 + 2) % 10 → m ∉ smallRevision.enabledModes) ∧
    ∀ j, j < 1 → ∃ m ∈ smallRevision.enabledModes, m.digit = 1001 / 10 ^ (j + 2) % 10 := by
  refine ⟨by decide, by decide, by decide, by decide, ?_, ?_⟩
  · intro m
    cases m <;> decide
  · decide
/-- Words of 8 bits: 100 + 100 does not fit. -/
def byteRealization : Config := { Config.hw with wordBits := some 8 }
theorem witness_FiniteWidthOverflowFaultsAndNeverWraps :
    resolveReadOn byteRealization (construct [1101, 100, 100, 5] []) 0 .immediate = .ok 100 ∧
    resolveReadOn byteRealization (construct [1101, 100, 100, 5] []) 1 .immediate = .ok 100 ∧
    resolveWriteOn byteRealization (construct [1101, 100, 100, 5] []) 2 .position = .ok 5 ∧
    fitsOn byteRealization (100 + 100) = false ∧ fitsOn byteRealization (100 + 27) = true := ⟨rfl, rfl, rfl, rfl, rfl⟩
theorem witness_MachinesShareNoState : (∃ sys', Instances.run [hungryMachine, sumMachine] 0 1 = some sys') ∧
    ∃ sys', Instances.transfer [{ hungryMachine with output := [1] }, hungryMachine] 0 1 1 = some sys' ∧
      sys'[1]? = some { hungryMachine with input := [1] } := ⟨⟨_, rfl⟩, _, rfl, rfl⟩

end Sys2Proof.Tests
end

section
/-! SUPPORT. The decoder at any value of the parameters: what a slot's digit decodes to, which slot rejects a word, and
the decoder in the terms of the opcode map (30_encoding.md R64, R66, R73). -/

namespace Sys2Proof

@[simp] theorem Opcode.ofCode?_code (op : Opcode) : Opcode.ofCode? op.code = some op := by
  cases op <;> rfl

@[simp] theorem Mode.ofDigit?_digit (m : Mode) : Mode.ofDigit? m.digit = some m := by
  cases m <;> rfl

theorem Mode.digit_of_ofDigit?_eq_some {d : Nat} {m : Mode} (h : Mode.ofDigit? d = some m) : m.digit = d := by
  unfold Mode.ofDigit? at h
  split at h <;> cases h <;> rfl

/-- A slot whose digit is that of an enabled mode has this mode (R64). -/
theorem slotModeOn_of_enabled {c : Config} {w slot : Nat} {m : Mode} (hm : m ∈ c.enabledModes)
    (hd : m.digit = modeDigit w slot) : slotModeOn c w slot = .ok m := by
  simp [slotModeOn, ← hd, hm]

/-- A slot whose digit is that of no enabled mode is rejected: the digit selects no mode, or a disabled one (R64). -/
theorem slotModeOn_of_disabled {c : Config} {w slot : Nat}
    (h : ∀ m : Mode, m.digit = modeDigit w slot → m ∉ c.enabledModes) :
    slotModeOn c w slot = .error (.mode slot (modeDigit w slot)) := by
  unfold slotModeOn
  split
  · next m hm => exact if_neg (h m (Mode.digit_of_ofDigit?_eq_some hm))
  · rfl

/-- `slot` is the first slot of the word `w` that does not decode, with the error `e`. -/
structure FirstBadSlot (c : Config) (w slot : Nat) (e : DecodeError) : Prop where
  bad : slotModeOn c w slot = .error e
  earlier : ∀ j, j < slot → ∃ m, slotModeOn c w j = .ok m

section FirstBadSlot
variable {c : Config} {w slot : Nat} {e : DecodeError} (h : FirstBadSlot c w slot e)
include h

theorem FirstBadSlot.oneSlotOn_eq (mk : Mode → Instr) (hslot : slot < 1) : oneSlotOn c w mk = .error e := by
  obtain rfl : slot = 0 := by omega
  rw [oneSlotOn, h.bad]
  rfl

theorem FirstBadSlot.twoSlotsOn_eq (mk : Mode → Mode → Instr) (hslot : slot < 2) : twoSlotsOn c w mk = .error e := by
  obtain rfl | rfl : slot = 0 ∨ slot = 1 := by omega
  · rw [twoSlotsOn, h.bad]
    rfl
  · obtain ⟨m0, h0⟩ := h.earlier 0 (by omega)
    rw [twoSlotsOn, h0, h.bad]
    rfl

theorem FirstBadSlot.threeSlotsOn_eq (mk : Mode → Mode → Mode → Instr) (hslot : slot < 3) :
    threeSlotsOn c w mk = .error e := by
  obtain rfl | rfl | rfl : slot = 0 ∨ slot = 1 ∨ slot = 2 := by omega
  · rw [threeSlotsOn, h.bad]
    rfl
  · obtain ⟨m0, h0⟩ := h.earlier 0 (by omega)
    rw [threeSlotsOn, h0, h.bad]
    rfl
  · obtain ⟨m0, h0⟩ := h.earlier 0 (by omega)
    obtain ⟨m1, h1⟩ := h.earlier 1 (by omega)
    rw [threeSlotsOn, h0, h1, h.bad]
    rfl

/-- The first bad one of an opcode's own slots rejects the word (R73). -/
theorem FirstBadSlot.decodeSlotsOn_eq (op : Opcode) (hslot : slot < op.operandCount) :
    decodeSlotsOn c w op = .error e := by
  cases op with
  | add | mul | lt | eq => exact h.threeSlotsOn_eq _ hslot
  | jnz | jz => exact h.twoSlotsOn_eq _ hslot
  | read | write | arb => exact h.oneSlotOn_eq _ hslot
  | halt => exact absurd hslot (Nat.not_lt_zero slot)

end FirstBadSlot

/-- A word with the opcode value of `op` decodes as `op` does if `op` is enabled, and is rejected whole otherwise
(R66, R67, R73). -/
theorem decodeOn_of_code {w : Nat} {op : Opcode} (c : Config) (hop : op.code = w % 100) :
    decodeOn c (w : Int) = if op ∈ c.enabledOpcodes then decodeSlotsOn c w op else .error (.opcode w) := by
  have hfield : Opcode.ofCode? (opcodeField w) = some op := by rw [opcodeField, ← hop, Opcode.ofCode?_code]
  have hw : ¬ (w : Int) < 0 := by omega
  simp only [decodeOn, hw, if_false, Int.toNat_natCast, hfield]

end Sys2Proof
end

section
/-! The step at other values of the parameters (00_scope.md R2, R8). -/

namespace Sys2Proof.Machine

theorem execOn_hw (i : Instr) (s : State) : execOn Config.hw i s = exec i s := by
  cases i <;> rfl

theorem stepOn_hw (s : State) : stepOn Config.hw s = step s := by
  unfold stepOn step
  cases enterRun s with
  | none => rfl
  | some s' =>
    simp only [engineStep, fetchDecode]
    cases fetchDecodeOn Config.hw s' with
    | ok i => exact execOn_hw i s'
    | error f => rfl

/-- A running machine whose word at `ip` does not decode enters the fault of the decode error (40_pipeline.md R83, R84, R94). -/
theorem stepOn_of_decode_error {c : Config} {s : State} {w : Int} {e : DecodeError} (hs : s.status = .running)
    (hip : s.ip ≤ c.addrMax) (hw : s.mem.read s.ip = w) (he : decodeOn c w = .error e) :
    stepOn c s = .next (faultedAt s (causeOfDecode e)) := by
  have hfetch : fetchDecodeOn c s = .error (causeOfDecode e) := by simp only [fetchDecodeOn, hip, if_true, hw, he]
  simp only [stepOn, enterRun, hs, hfetch, commit_error, enterFault_eq_faultedAt]

/-- Settles O52: the meanings of the ten instructions are the parameterised ones at this hardware's parameters, and so
is the step. -/
theorem finalRevisionIsThisMachine : Obligations.FinalRevisionIsThisMachine :=
  fun s i => ⟨stepOn_hw s, execOn_hw i s⟩

/-- Settles O53: the decoder rejects the word at the opcode, or at the first slot whose digit is that of no enabled mode,
and the step enters the fault of the rejection. -/
theorem disabledOpcodesAndModesFault : Obligations.DisabledOpcodesAndModesFault := by
  intro c s w op hs hip hw hop
  have hdecode := decodeOn_of_code c hop
  refine ⟨fun hdisabled => ?_, fun henabled slot hslot hbad hearlier => ?_⟩
  · rw [if_neg hdisabled] at hdecode
    exact stepOn_of_decode_error hs hip hw hdecode
  · have hfirst : FirstBadSlot c w slot (.mode slot (modeDigit w slot)) :=
      { bad := slotModeOn_of_disabled hbad
        earlier := fun j hj => (hearlier j hj).imp fun _ ⟨hm, hd⟩ => slotModeOn_of_enabled hm hd }
    rw [if_pos henabled, hfirst.decodeSlotsOn_eq op hslot] at hdecode
    exact stepOn_of_decode_error hs hip hw hdecode

end Sys2Proof.Machine
end

section
/-! The decoder's rejections (30_encoding.md R63, R64, R73): what is known of a word that does not decode. -/

namespace Sys2Proof

theorem Mode.three_le_of_ofDigit?_eq_none {d : Nat} (h : Mode.ofDigit? d = none) : 3 ≤ d := by
  match d with
  | 0 | 1 | 2 => cases h
  | d + 3 => omega

theorem Mode.mem_enabledModes_hw (m : Mode) : m ∈ Config.hw.enabledModes := by
  cases m <;> decide

theorem Opcode.mem_enabledOpcodes_hw (op : Opcode) : op ∈ Config.hw.enabledOpcodes := by
  cases op <;> decide

theorem Opcode.operandCount_le_three (op : Opcode) : op.operandCount ≤ 3 := by
  cases op <;> decide

/-- A slot of this hardware is rejected for a digit above 2 only, and by its own name (R64). -/
theorem slotModeOn_hw_eq_error {w slot : Nat} {e : DecodeError} (h : slotModeOn Config.hw w slot = .error e) :
    e = .mode slot (modeDigit w slot) ∧ 3 ≤ modeDigit w slot := by
  unfold slotModeOn at h
  split at h
  · next m _ =>
    rw [if_pos (Mode.mem_enabledModes_hw m)] at h
    cases h
  · next hd =>
    cases h
    exact ⟨rfl, Mode.three_le_of_ofDigit?_eq_none hd⟩

/-- The first `n` slots of a word all decode, or one of them is the first that does not. -/
theorem slots_decode_or_firstBadSlot (c : Config) (w n : Nat) :
    (∀ j, j < n → ∃ m, slotModeOn c w j = .ok m) ∨ ∃ slot e, slot < n ∧ FirstBadSlot c w slot e := by
  induction n with
  | zero => exact .inl fun j hj => absurd hj (Nat.not_lt_zero j)
  | succ n ih =>
    rcases ih with hall | ⟨slot, e, hslot, hfirst⟩
    · cases hn : slotModeOn c w n with
      | ok m => exact .inl fun j hj => (Nat.lt_succ_iff_lt_or_eq.mp hj).elim (hall j) fun hjn => ⟨m, hjn ▸ hn⟩
      | error e => exact .inr ⟨n, e, n.lt_succ_self, hn, hall⟩
    · exact .inr ⟨slot, e, hslot.trans n.lt_succ_self, hfirst⟩

/-- An opcode whose own slots all decode gives an instruction. -/
theorem decodeSlotsOn_of_slots_decode {c : Config} {w : Nat} {op : Opcode}
    (h : ∀ j, j < op.operandCount → ∃ m, slotModeOn c w j = .ok m) : ∃ i, decodeSlotsOn c w op = .ok i := by
  cases op with
  | add | mul | lt | eq =>
    obtain ⟨m0, h0⟩ := h 0 (by decide)
    obtain ⟨m1, h1⟩ := h 1 (by decide)
    obtain ⟨m2, h2⟩ := h 2 (by decide)
    exact ⟨_, by rw [decodeSlotsOn, threeSlotsOn, h0, h1, h2]; rfl⟩
  | jnz | jz =>
    obtain ⟨m0, h0⟩ := h 0 (by decide)
    obtain ⟨m1, h1⟩ := h 1 (by decide)
    exact ⟨_, by rw [decodeSlotsOn, twoSlotsOn, h0, h1]; rfl⟩
  | read | write | arb =>
    obtain ⟨m0, h0⟩ := h 0 (by decide)
    exact ⟨_, by rw [decodeSlotsOn, oneSlotOn, h0]; rfl⟩
  | halt => exact ⟨_, rfl⟩

/-- The modes of an opcode are rejected at the first bad one of its own slots (R63, R73). -/
theorem firstBadSlot_of_decodeSlotsOn_eq_error {c : Config} {w : Nat} {op : Opcode} {e : DecodeError}
    (h : decodeSlotsOn c w op = .error e) : ∃ slot, slot < op.operandCount ∧ FirstBadSlot c w slot e := by
  rcases slots_decode_or_firstBadSlot c w op.operandCount with hall | ⟨slot, e', hslot, hfirst⟩
  · obtain ⟨i, hi⟩ := decodeSlotsOn_of_slots_decode hall
    rw [hi] at h
    cases h
  · rw [hfirst.decodeSlotsOn_eq op hslot] at h
    cases h
    exact ⟨slot, hslot, hfirst⟩

/-- What this hardware's decoder rejects: a word for its sign or its opcode value, or a slot for a digit above 2
(R64, R65, R67). -/
theorem decode_eq_error {w : Int} {e : DecodeError} (h : decode w = .error e) :
    (e = .opcode w ∧ (w < 0 ∨ Opcode.ofCode? (opcodeField w.toNat) = none)) ∨
    ∃ slot, slot < 3 ∧ e = .mode slot (modeDigit w.toNat slot) ∧ 3 ≤ modeDigit w.toNat slot := by
  unfold decode decodeOn at h
  split at h
  · next hneg =>
    cases h
    exact .inl ⟨rfl, .inl hneg⟩
  · split at h
    · next hcode =>
      cases h
      exact .inl ⟨rfl, .inr hcode⟩
    · next op _ =>
      rw [if_pos (Opcode.mem_enabledOpcodes_hw op)] at h
      obtain ⟨slot, hslot, hfirst⟩ := firstBadSlot_of_decodeSlotsOn_eq_error h
      exact .inr ⟨slot, hslot.trans_le op.operandCount_le_three, slotModeOn_hw_eq_error hfirst.bad⟩

end Sys2Proof
end

section
/-! An instruction's operand fault in terms of its slots, and the causes this hardware can record
(60_exceptions.md R150 to R156). -/

namespace Sys2Proof.Machine

theorem slotFault_of_firstFaultFrom_eq_some {s : State} {f : Cause} (slots : List (Intent × Mode)) (n : Nat)
    (h : firstFaultFrom s n slots = some f) :
    ∃ k intent m, slots[k]? = some (intent, m) ∧ slotFault s (n + k) intent m = some f := by
  induction slots generalizing n with
  | nil => cases h
  | cons p rest ih =>
    obtain ⟨intent, m⟩ := p
    cases hp : slotFault s n intent m with
    | some g =>
      simp only [firstFaultFrom, hp] at h
      exact ⟨0, intent, m, rfl, hp.trans h⟩
    | none =>
      simp only [firstFaultFrom, hp] at h
      obtain ⟨k, intent', m', hk, hf⟩ := ih (n + 1) h
      exact ⟨k + 1, intent', m', hk, by rwa [Nat.add_right_comm] at hf⟩

theorem slotFault_of_firstFaultFrom_eq_none {s : State} (slots : List (Intent × Mode)) (n : Nat)
    (h : firstFaultFrom s n slots = none) (k : Nat) (intent : Intent) (m : Mode)
    (hk : slots[k]? = some (intent, m)) : slotFault s (n + k) intent m = none := by
  induction slots generalizing n k with
  | nil => cases hk
  | cons p rest ih =>
    obtain ⟨intent', m'⟩ := p
    cases hp : slotFault s n intent' m' with
    | some g => simp [firstFaultFrom, hp] at h
    | none =>
      cases k with
      | zero =>
        cases hk
        exact hp
      | succ k =>
        simp only [firstFaultFrom, hp] at h
        have := ih (n + 1) h k hk
        rwa [Nat.add_right_comm] at this

/-- An operand fault is the fault of one of the instruction's slots (40_pipeline.md R92). -/
theorem slotFault_of_operandFault_eq_some {s : State} {i : Instr} {f : Cause} (h : operandFault s i = some f) :
    ∃ slot intent m, i.slots[slot]? = some (intent, m) ∧ slotFault s slot intent m = some f := by
  simpa using slotFault_of_firstFaultFrom_eq_some i.slots 0 h

/-- Where no operand faults, no slot does (40_pipeline.md R92). -/
theorem slotFault_of_operandFault_eq_none {s : State} {i : Instr} {slot : Nat} {intent : Intent} {m : Mode}
    (h : operandFault s i = none) (hslot : i.slots[slot]? = some (intent, m)) : slotFault s slot intent m = none := by
  simpa using slotFault_of_firstFaultFrom_eq_none i.slots 0 h slot intent m hslot

/-- The Write slots of the opcode map are slot 0 of READ and slot 2 of the format F4 (30_encoding.md R66). -/
theorem write_slot_eq_zero_or_two {i : Instr} {slot : Nat} {m : Mode} (h : i.slots[slot]? = some (.write, m)) :
    slot = 0 ∨ slot = 2 := by
  have hintent : i.opcode.intents[slot]? = some .write := (List.getElem?_zip_eq_some.mp h).1
  have hslot : slot < 3 := (List.getElem?_eq_some_iff.mp hintent).1.trans_le i.opcode.operandCount_le_three
  obtain rfl | rfl | rfl : slot = 0 ∨ slot = 1 ∨ slot = 2 := by omega
  · exact .inl rfl
  · cases i <;> cases hintent
  · exact .inr rfl

theorem possible_of_addressFault {intent : Intent} {ea : Int} {f : Cause}
    (h : addressFault (effectiveKind intent) ea = some f) : f.possible := by
  have hkind : effectiveKind intent = .effectiveRead ∨ effectiveKind intent = .effectiveWrite := by
    cases intent
    · exact .inl rfl
    · exact .inr rfl
  unfold addressFault at h
  split at h
  · next hneg =>
    cases h
    exact ⟨hneg, hkind.imp_right .inl⟩
  · split at h
    · next habove =>
      cases h
      exact ⟨habove, by rcases hkind with hk | hk <;> simp [hk]⟩
    · cases h

/-- Resolving a slot raises a possible cause: WRITE_MODE names a Write slot (R153). -/
theorem possible_of_slotFault {s : State} {slot : Nat} {intent : Intent} {m : Mode} {f : Cause}
    (hslot : intent = .write → slot = 0 ∨ slot = 2) (h : slotFault s slot intent m = some f) : f.possible := by
  unfold slotFault at h
  split at h
  · next habove =>
    cases h
    exact ⟨Int.ofNat_lt.mpr habove, by decide⟩
  · split at h
    · split at h
      · next hwrite =>
        cases h
        exact hslot hwrite
      · cases h
    · exact possible_of_addressFault h

theorem possible_of_operandFault {s : State} {i : Instr} {f : Cause} (h : operandFault s i = some f) :
    f.possible := by
  obtain ⟨slot, intent, m, hslot, hf⟩ := slotFault_of_operandFault_eq_some h
  exact possible_of_slotFault (fun hwrite => write_slot_eq_zero_or_two (hwrite ▸ hslot)) hf

theorem possible_of_decode_eq_error {w : Int} {e : DecodeError} (h : decode w = .error e) :
    (causeOfDecode e).possible := by
  rcases decode_eq_error h with ⟨rfl, hw⟩ | ⟨slot, hslot, rfl, hdigit⟩
  · exact hw
  · exact ⟨hslot, hdigit, Nat.le_of_lt_succ (Nat.mod_lt _ (by decide))⟩

/-- Fetch and decode raise a possible cause (R151, R152, R155). -/
theorem possible_of_fetchDecode_eq_error {s : State} {f : Cause} (h : fetchDecode s = .error f) : f.possible := by
  unfold fetchDecode fetchDecodeOn at h
  split at h
  · split at h
    · cases h
    · next e he =>
      cases h
      exact possible_of_decode_eq_error he
  · next habove =>
    cases h
    exact ⟨Int.ofNat_lt.mpr (not_le.mp habove), by decide⟩

end Sys2Proof.Machine
end

section
/-! The effect of an instruction (40_pipeline.md R93): how it stops the machine, or what it leaves when the machine
goes on. -/

namespace Sys2Proof.Machine

/-- What an instruction answers: its first operand fault entered, or its effect. -/
theorem exec_cases {s t : State} {i : Instr} (h : exec i s = .next t) :
    (∃ f, operandFault s i = some f ∧ t = s.enterFault f) ∨ (operandFault s i = none ∧ t = effect s i) := by
  rw [exec_eq] at h
  cases ho : operandFault s i with
  | some f =>
    rw [ho] at h
    exact .inl ⟨f, rfl, by cases h; rfl⟩
  | none =>
    rw [ho] at h
    exact .inr ⟨rfl, by cases h; rfl⟩

@[simp] theorem readValue_setStatus (s : State) (v : Status) (slot : Nat) (m : Mode) :
    readValue (s.setStatus v) slot m = readValue s slot m :=
  readValue_congr (sameOperands_setStatus s v) slot m

@[simp] theorem operandFault_setStatus (s : State) (v : Status) (i : Instr) :
    operandFault (s.setStatus v) i = operandFault s i :=
  operandFault_congr (sameOperands_setStatus s v) i

/-- A jump that is taken, with its target (43_control.md R120, R121). -/
def takesJumpTo (s : State) (i : Instr) (target : Int) : Prop :=
  ∃ m0 m1, (i = .jnz m0 m1 ∧ readValue s 0 m0 ≠ 0 ∨ i = .jz m0 m1 ∧ readValue s 0 m0 = 0) ∧
    target = readValue s 1 m1

@[simp] theorem takesJumpTo_setStatus (s : State) (v : Status) (i : Instr) (target : Int) :
    takesJumpTo (s.setStatus v) i target ↔ takesJumpTo s i target := by
  simp only [takesJumpTo, readValue_setStatus]

theorem takesJumpTo.ne_halt {s : State} {i : Instr} {target : Int} (h : takesJumpTo s i target) : i ≠ .halt := by
  obtain ⟨m0, m1, ⟨rfl, -⟩ | ⟨rfl, -⟩, -⟩ := h <;> exact nofun

theorem takesJumpTo.ne_read {s : State} {i : Instr} {target : Int} (h : takesJumpTo s i target) (m : Mode) :
    i ≠ .read m := by
  obtain ⟨m0, m1, ⟨rfl, -⟩ | ⟨rfl, -⟩, -⟩ := h <;> exact nofun

/-- The state `t` is what the instruction `i` leaves of `s` when the machine goes on: neither HALT nor a READ without
input was executed, and no fault was entered. -/
structure GoesOn (s : State) (i : Instr) (t : State) : Prop where
  status : t.status = s.status
  fault : t.fault = s.fault
  notHalt : i ≠ .halt
  notBlocked : ∀ m, i = .read m → s.input ≠ []
  ip : t.ip = s.ip + i.opcode.width ∨ takesJumpTo s i t.ip
  mem : t.mem = s.mem ∨
    ∃ slot m v, i.slots[slot]? = some (.write, m) ∧ t.mem = s.mem.write (destination s slot m) v

/-- What a taken jump leaves (43_control.md R122). -/
def effectOfJump (s : State) (target : Int) : State :=
  if target < 0 then s.enterFault (.negativeAddress .jumpTarget target) else s.setIp target.toNat

theorem effect_jnz (s : State) (m0 m1 : Mode) :
    effect s (.jnz m0 m1) =
      if readValue s 0 m0 = 0 then s.advanceIp 3 else effectOfJump s (readValue s 1 m1) := rfl

theorem effect_jz (s : State) (m0 m1 : Mode) :
    effect s (.jz m0 m1) =
      if readValue s 0 m0 = 0 then effectOfJump s (readValue s 1 m1) else s.advanceIp 3 := rfl

theorem effectOfJump_cases {s : State} {i : Instr} {target : Int} (h : takesJumpTo s i target) :
    (∃ v, takesJumpTo s i v ∧ v < 0 ∧ effectOfJump s target = s.enterFault (.negativeAddress .jumpTarget v)) ∨
    GoesOn s i (effectOfJump s target) := by
  by_cases hneg : target < 0
  · exact .inl ⟨target, h, hneg, if_pos hneg⟩
  · rw [show effectOfJump s target = s.setIp target.toNat from if_neg hneg]
    refine .inr ⟨rfl, rfl, ?_, ?_, .inr ?_, .inl rfl⟩
    · exact h.ne_halt
    · exact fun m hi => absurd hi (h.ne_read m)
    · rwa [State.setIp_ip, Int.toNat_of_nonneg (not_lt.mp hneg)]

/-- The inversion of an effect: the three ways an instruction stops the machine, or what it leaves when the machine goes
on. -/
theorem effect_cases (s : State) (i : Instr) :
    (i = .halt ∧ effect s i = s.setStatus .halted) ∨
    (∃ m, i = .read m ∧ s.input = [] ∧ effect s i = s.setStatus .suspendedForInput) ∨
    (∃ target, takesJumpTo s i target ∧ target < 0 ∧
      effect s i = s.enterFault (.negativeAddress .jumpTarget target)) ∨
    GoesOn s i (effect s i) := by
  cases i with
  | add m0 m1 m2 | mul m0 m1 m2 | lt m0 m1 m2 | eq m0 m1 m2 =>
    exact .inr (.inr (.inr ⟨rfl, rfl, nofun, nofun, .inl rfl, .inr ⟨2, m2, _, rfl, rfl⟩⟩))
  | read m0 =>
    cases hin : s.input with
    | nil => exact .inr (.inl ⟨m0, rfl, rfl, by simp only [effect, hin]⟩)
    | cons v rest =>
      have heffect : effect s (.read m0) = ((s.setInput rest).memWrite (destination s 0 m0) v).advanceIp 2 := by
        simp only [effect, hin]
      rw [heffect]
      exact .inr (.inr (.inr ⟨rfl, rfl, nofun, fun _ _ => by simp [hin], .inl rfl, .inr ⟨0, m0, v, rfl, rfl⟩⟩))
  | write m0 | arb m0 => exact .inr (.inr (.inr ⟨rfl, rfl, nofun, nofun, .inl rfl, .inl rfl⟩))
  | jnz m0 m1 =>
    by_cases hzero : readValue s 0 m0 = 0
    · rw [effect_jnz, if_pos hzero]
      exact .inr (.inr (.inr ⟨rfl, rfl, nofun, nofun, .inl rfl, .inl rfl⟩))
    · rw [effect_jnz, if_neg hzero]
      exact .inr (.inr (effectOfJump_cases ⟨m0, m1, .inl ⟨rfl, hzero⟩, rfl⟩))
  | jz m0 m1 =>
    by_cases hzero : readValue s 0 m0 = 0
    · rw [effect_jz, if_pos hzero]
      exact .inr (.inr (effectOfJump_cases ⟨m0, m1, .inr ⟨rfl, hzero⟩, rfl⟩))
    · rw [effect_jz, if_neg hzero]
      exact .inr (.inr (.inr ⟨rfl, rfl, nofun, nofun, .inl rfl, .inl rfl⟩))
  | halt => exact .inl ⟨rfl, rfl⟩

/-- Only ARB writes `rb` (10_state.md R23). -/
theorem effect_rb {s : State} {i : Instr} (h : ∀ m, i ≠ .arb m) : (effect s i).rb = s.rb := by
  cases i with
  | add | mul | write | lt | eq | halt => rfl
  | read m0 => cases hin : s.input <;> simp [effect, hin]
  | jnz m0 m1 | jz m0 m1 =>
    simp only [effect]
    split_ifs <;> rfl
  | arb m0 => exact absurd rfl (h m0)

end Sys2Proof.Machine
end

section
/-! The invariant of the machine: construction has it, and every step keeps it. -/

namespace Sys2Proof.Machine

/-- A Running machine without a fault record has the invariant if its memory does. -/
theorem State.Inv.of_running {s : State} (hstatus : s.status = .running) (hfault : s.fault = none)
    (hwf : s.mem.wf = true) (hrange : ∀ cell ∈ s.mem, cell.1 ≤ Config.hw.addrMax) : s.Inv where
  memoryCanonical := hwf
  memoryInRange := hrange
  faultRecorded := by simp [hstatus, hfault]
  faultPrecise := by simp [hfault]
  suspendedAtRead := by simp [hstatus]
  haltedAtHalt := by simp [hstatus]

theorem State.Inv.fault_eq_none {s : State} (h : s.Inv) (hl : live s) : s.fault = none := by
  by_contra hne
  have hfaulted := h.faultRecorded.mpr hne
  rcases hl with hl | hl <;> simp [hl] at hfaulted

/-- Entering a run call keeps the invariant (40_pipeline.md R95). -/
theorem State.Inv.setStatus_running {s : State} (h : s.Inv) (hl : live s) : (s.setStatus .running).Inv :=
  .of_running rfl (h.fault_eq_none hl) h.memoryCanonical h.memoryInRange

/-- The fault transition keeps the invariant (40_pipeline.md R94). -/
theorem State.Inv.enterFault {s : State} {f : Cause} (h : s.Inv) (hf : f.possible) : (s.enterFault f).Inv where
  memoryCanonical := h.memoryCanonical
  memoryInRange := h.memoryInRange
  faultRecorded := by simp
  faultPrecise := by
    rintro r hr
    cases hr
    exact ⟨rfl, hf⟩
  suspendedAtRead := by simp
  haltedAtHalt := by simp

/-- HALT keeps the invariant (45_system.md R141). -/
theorem State.Inv.setStatus_halted {s : State} (h : s.Inv) (hl : live s) (hfetch : fetchDecode s = .ok .halt) :
    (s.setStatus .halted).Inv where
  memoryCanonical := h.memoryCanonical
  memoryInRange := h.memoryInRange
  faultRecorded := by simp [h.fault_eq_none hl]
  faultPrecise := by simp [h.fault_eq_none hl]
  suspendedAtRead := by simp
  haltedAtHalt := fun _ => hfetch

/-- Suspension keeps the invariant (10_state.md R24, R31). -/
theorem State.Inv.setStatus_suspended {s : State} {m : Mode} (h : s.Inv) (hl : live s)
    (hfetch : fetchDecode s = .ok (.read m)) (hops : operandFault s (.read m) = none) :
    (s.setStatus .suspendedForInput).Inv where
  memoryCanonical := h.memoryCanonical
  memoryInRange := h.memoryInRange
  faultRecorded := by simp [h.fault_eq_none hl]
  faultPrecise := by simp [h.fault_eq_none hl]
  suspendedAtRead := fun _ => ⟨m, hfetch, (operandFault_setStatus ..).trans hops⟩
  haltedAtHalt := by simp

/-- A write to an address the memory unit accepts keeps the cells in range (20_memory.md R40). -/
theorem Memory.write_inRange {m : Memory} {a : Nat} {v : Int} (h : ∀ cell ∈ m, cell.1 ≤ Config.hw.addrMax)
    (ha : a ≤ Config.hw.addrMax) : ∀ cell ∈ m.write a v, cell.1 ≤ Config.hw.addrMax := by
  intro cell hcell
  rcases Memory.mem_of_mem_write hcell with rfl | hold
  · exact ha
  · exact h cell hold

/-- An instruction after which the machine goes on keeps the invariant. -/
theorem State.Inv.of_goesOn {s t : State} {i : Instr} (h : s.Inv) (hs : s.status = .running)
    (hops : operandFault s i = none) (hgo : GoesOn s i t) : t.Inv := by
  obtain ⟨hwf, hrange⟩ : t.mem.wf = true ∧ ∀ cell ∈ t.mem, cell.1 ≤ Config.hw.addrMax := by
    rcases hgo.mem with hsame | ⟨slot, m, v, hslot, hwrite⟩
    · rw [hsame]
      exact ⟨h.memoryCanonical, h.memoryInRange⟩
    · rw [hwrite]
      have hdest := destination_le_addrMax s slot m (slotFault_of_operandFault_eq_none hops hslot)
      exact ⟨Memory.wf_write _ _ _ h.memoryCanonical, Memory.write_inRange h.memoryInRange hdest⟩
  exact .of_running (hgo.status.trans hs) (hgo.fault.trans (h.fault_eq_none (.inl hs))) hwf hrange

/-- The effect of the instruction at `ip` of a Running machine keeps the invariant. -/
theorem State.Inv.effect {s : State} {i : Instr} (h : s.Inv) (hs : s.status = .running)
    (hfetch : fetchDecode s = .ok i) (hops : operandFault s i = none) : (effect s i).Inv := by
  rcases effect_cases s i with ⟨rfl, heq⟩ | ⟨m, rfl, -, heq⟩ | ⟨target, -, hneg, heq⟩ | hgo
  · rw [heq]
    exact h.setStatus_halted (.inl hs) hfetch
  · rw [heq]
    exact h.setStatus_suspended (.inl hs) hfetch hops
  · rw [heq]
    exact h.enterFault ⟨hneg, .inr (.inr rfl)⟩
  · exact h.of_goesOn hs hops hgo

/-- Settles O48: a step leaves the machine, enters a possible fault, or is the effect of the instruction at `ip`, and
each keeps the invariant. -/
theorem everyStepKeepsTheInvariantOfTheMachine : Obligations.EveryStepKeepsTheInvariantOfTheMachine := by
  intro s t h hstep
  rcases step_cases hstep with
    ⟨-, rfl⟩ | ⟨-, f, hfetch, rfl⟩ | ⟨-, i, -, f, hf, rfl⟩ | ⟨hl, i, hfetch, hops, rfl⟩
  · exact h
  · exact h.enterFault (possible_of_fetchDecode_eq_error hfetch)
  · exact h.enterFault (possible_of_operandFault hf)
  · exact (h.setStatus_running hl).effect rfl hfetch ((operandFault_setStatus ..).trans hops)

/-- Settles O51: the image's cells are canonical and lie below the image's length. -/
theorem constructedMachinesHaveTheInvariant : Obligations.ConstructedMachinesHaveTheInvariant := by
  intro image input hlength
  refine .of_running rfl rfl (Memory.wf_ofImage image 0) fun cell hcell => ?_
  have haddr := (Memory.addr_of_mem_ofImage image 0 hcell).2
  rw [addrMax_hw]
  omega

/-- Settles O50: reset is the empty construction, which has the invariant. -/
theorem resetStateHasTheInvariantOfTheMachine : Obligations.ResetStateHasTheInvariantOfTheMachine :=
  ⟨rfl, constructedMachinesHaveTheInvariant [] [] (Nat.zero_le _)⟩

end Sys2Proof.Machine
end

section
/-! What a step does to `rb`, to the status and to `ip` (10_state.md R22 to R24). -/

namespace Sys2Proof.Machine

/-- Settles O18: ARB is the sum stored and `ip` advanced; no other effect, nor the fault transition, writes `rb`. -/
theorem arbAloneAddsToTheRelativeBase : Obligations.ArbAloneAddsToTheRelativeBase := by
  refine ⟨fun s m0 => ⟨(Laws.Canonical.arb m0).1, fun hops => ?_⟩, fun s t i hexec hi => ?_⟩
  · rw [exec_eq, hops]
    rfl
  · rcases exec_cases hexec with ⟨f, -, rfl⟩ | ⟨-, rfl⟩
    · rfl
    · exact effect_rb hi

/-- Settles O32: a step that stays or faults keeps `rb`, and so does every effect but ARB's. -/
theorem onlyArbChangesTheRelativeBase : Obligations.OnlyArbChangesTheRelativeBase := by
  intro s t hstep hrb
  rcases step_cases hstep with ⟨-, rfl⟩ | ⟨-, f, -, rfl⟩ | ⟨-, i, -, f, -, rfl⟩ | ⟨-, i, hfetch, -, rfl⟩
  · exact absurd rfl hrb
  · exact absurd rfl hrb
  · exact absurd rfl hrb
  · by_contra hne
    push Not at hne
    exact hrb (effect_rb fun m hi => hne m (hi ▸ hfetch))

/-- HALT alone halts a Running machine. -/
theorem effect_status_eq_halted_iff {s : State} (hs : s.status = .running) (i : Instr) :
    (effect s i).status = .halted ↔ i = .halt := by
  rcases effect_cases s i with ⟨rfl, heq⟩ | ⟨m, rfl, -, heq⟩ | ⟨target, hjump, -, heq⟩ | hgo
  · simp [heq]
  · simp [heq]
  · simp [heq, hjump.ne_halt]
  · simp [hgo.status, hs, hgo.notHalt]

/-- A READ without input alone suspends a Running machine. -/
theorem effect_status_eq_suspended_iff {s : State} (hs : s.status = .running) (i : Instr) :
    (effect s i).status = .suspendedForInput ↔ ∃ m, i = .read m ∧ s.input = [] := by
  rcases effect_cases s i with ⟨rfl, heq⟩ | ⟨m, rfl, hin, heq⟩ | ⟨target, hjump, -, heq⟩ | hgo
  · simp [heq]
  · simp [heq, hin]
  · simp [heq, hjump.ne_read]
  · simpa [hgo.status, hs] using hgo.notBlocked

/-- Settles O35: a fault makes the machine Faulted, and of the effects HALT's alone halts it and a blocked READ's alone
suspends it. -/
theorem haltAndReadAloneStopARunningMachine : Obligations.HaltAndReadAloneStopARunningMachine := by
  intro s t hl hstep
  rcases step_cases hstep with
    ⟨hnl, -⟩ | ⟨-, f, hfetch, rfl⟩ | ⟨-, i, hfetch, f, hf, rfl⟩ | ⟨-, i, hfetch, hops, rfl⟩
  · exact absurd hl hnl
  · simp [hfetch]
  · have hhalt : i ≠ .halt := by
      rintro rfl
      cases hf
    have hread : ∀ m, i = .read m → operandFault s (.read m) = none → s.input ≠ [] := by
      rintro m rfl hnone
      rw [hf] at hnone
      cases hnone
    simpa [hfetch, hhalt] using hread
  · rw [effect_status_eq_halted_iff rfl, effect_status_eq_suspended_iff rfl, hfetch]
    refine ⟨⟨congrArg _, Except.ok.inj⟩, ?_, ?_⟩
    · rintro ⟨m, rfl, hin⟩
      exact ⟨m, rfl, hops, hin⟩
    · rintro ⟨m, hi, -, hin⟩
      exact ⟨m, Except.ok.inj hi, hin⟩

/-- Where the `ip` of a machine goes by the effect of an instruction. -/
theorem effect_ip {s : State} (hs : s.status = .running) (i : Instr) :
    ((effect s i).status ≠ .running → (effect s i).ip = s.ip) ∧
    ((effect s i).status = .running →
      (effect s i).ip = s.ip + i.opcode.width ∨ takesJumpTo s i (effect s i).ip) := by
  rcases effect_cases s i with ⟨-, heq⟩ | ⟨m, -, -, heq⟩ | ⟨target, -, -, heq⟩ | hgo
  · simp [heq]
  · simp [heq]
  · simp [heq]
  · exact ⟨fun hne => absurd (hgo.status.trans hs) hne, fun _ => hgo.ip⟩

/-- Settles O36: staying or faulting keeps `ip`, and an effect moves it by the width or to a jump's target. -/
theorem nextIpIsWidthOrJumpTarget : Obligations.NextIpIsWidthOrJumpTarget := by
  intro s t hstep
  rcases step_cases hstep with ⟨hnl, rfl⟩ | ⟨-, f, -, rfl⟩ | ⟨-, i, -, f, -, rfl⟩ | ⟨-, i, hfetch, -, rfl⟩
  · exact ⟨fun _ => rfl, fun hs => absurd (.inl hs) hnl⟩
  · exact ⟨fun _ => rfl, nofun⟩
  · exact ⟨fun _ => rfl, nofun⟩
  · obtain ⟨hstop, hgo⟩ := effect_ip (s := s.setStatus .running) rfl i
    exact ⟨hstop, fun hrun => ⟨i, hfetch, (hgo hrun).imp_right (takesJumpTo_setStatus ..).mp⟩⟩

end Sys2Proof.Machine
end

section
/-! Noninterference: what no operand, fetch or status depends on, a step carries along (10_state.md R31). -/

namespace Sys2Proof.Machine

/-- A change `g` of the queues or the fault record: it leaves what operands, fetch and the run contract depend on, and
an update of any other component does the same before and after it. -/
structure CarriedAlong (g : State → State) : Prop where
  operands : ∀ s, SameOperands s (g s)
  status : ∀ s, (g s).status = s.status
  memWrite : ∀ s a v, (g s).memWrite a v = g (s.memWrite a v)
  setIp : ∀ s n, (g s).setIp n = g (s.setIp n)
  setRb : ∀ s v, (g s).setRb v = g (s.setRb v)
  setStatus : ∀ s v, (g s).setStatus v = g (s.setStatus v)

section CarriedAlong
variable {g : State → State} (hg : CarriedAlong g)
include hg

theorem CarriedAlong.advanceIp (s : State) (n : Nat) : (g s).advanceIp n = g (s.advanceIp n) := by
  calc (g s).advanceIp n = (g s).setIp (s.ip + n) := by rw [← (hg.operands s).ip]; rfl
    _ = g (s.advanceIp n) := hg.setIp s (s.ip + n)

theorem CarriedAlong.live_iff (s : State) : live (g s) ↔ live s := by
  rw [live, live, hg.status]

theorem CarriedAlong.effectOfJump_eq {s : State} {target : Int}
    (hfault : ∀ f, effectOfJump s target = s.enterFault f → (g s).enterFault f = g (s.enterFault f)) :
    effectOfJump (g s) target = g (effectOfJump s target) := by
  unfold effectOfJump at hfault ⊢
  by_cases hneg : target < 0
  · simp only [hneg, if_true] at hfault ⊢
    exact hfault _ rfl
  · simp only [hneg, if_false]
    exact hg.setIp ..

/-- A READ carries `g` along if `g` leaves the input. -/
theorem CarriedAlong.effect_read_eq {s : State} (m : Mode) (hinput : (g s).input = s.input)
    (hsetInput : ∀ ws, (g s).setInput ws = g (s.setInput ws)) :
    effect (g s) (.read m) = g (effect s (.read m)) := by
  cases hin : s.input with
  | nil => simp only [effect, hinput, hin, hg.setStatus]
  | cons v rest =>
    simp only [effect, hinput, hin, destination_congr (hg.operands s), hsetInput, hg.memWrite, hg.advanceIp]

/-- An effect carries `g` along if the accesses to the queues and the fault transition do. -/
theorem CarriedAlong.effect_eq {s : State} {i : Instr}
    (hread : ∀ m, i = .read m → effect (g s) i = g (effect s i))
    (hwrite : ∀ v, (g s).pushOutput v = g (s.pushOutput v))
    (hfault : ∀ f, effect s i = s.enterFault f → (g s).enterFault f = g (s.enterFault f)) :
    effect (g s) i = g (effect s i) := by
  have hops := hg.operands s
  cases i with
  | add | mul | lt | eq =>
    simp only [effect, readValue_congr hops, destination_congr hops, hg.memWrite, hg.advanceIp]
  | read m => exact hread m rfl
  | write => simp only [effect, readValue_congr hops, hwrite, hg.advanceIp]
  | jnz m0 m1 =>
    simp only [effect_jnz, readValue_congr hops] at hfault ⊢
    by_cases hzero : readValue s 0 m0 = 0
    · simp only [hzero, if_true, hg.advanceIp]
    · simp only [hzero, if_false] at hfault ⊢
      exact hg.effectOfJump_eq hfault
  | jz m0 m1 =>
    simp only [effect_jz, readValue_congr hops] at hfault ⊢
    by_cases hzero : readValue s 0 m0 = 0
    · simp only [hzero, if_true] at hfault ⊢
      exact hg.effectOfJump_eq hfault
    · simp only [hzero, if_false, hg.advanceIp]
  | arb => simp only [effect, readValue_congr hops, hops.rb, hg.setRb, hg.advanceIp]
  | halt => exact hg.setStatus s .halted

/-- A step carries `g` along if the fault it enters or the effect it commits does. -/
theorem CarriedAlong.step_eq {s t : State} (hstep : step s = .next t)
    (hfault : ∀ f, t = s.enterFault f → (g s).enterFault f = g (s.enterFault f))
    (heffect : ∀ i, t = effect (s.setStatus .running) i →
      effect (g (s.setStatus .running)) i = g (effect (s.setStatus .running) i)) :
    step (g s) = .next (g t) := by
  have hfetch : fetchDecode (g s) = fetchDecode s := fetchDecode_congr (hg.operands s)
  by_cases hl : live s
  · rw [step_of_live ((hg.live_iff s).mpr hl), hfetch, hg.setStatus]
    rcases step_cases hstep with ⟨hnl, -⟩ | ⟨-, f, hf, rfl⟩ | ⟨-, i, hi, f, hf, rfl⟩ | ⟨-, i, hi, hops, rfl⟩
    · exact absurd hl hnl
    · simp only [hf, hfault f rfl]
    · simp only [hi, exec_eq, operandFault_congr (hg.operands _), operandFault_setStatus, hf]
      rw [← hg.setStatus, ← hfault f rfl]
      rfl
    · simp only [hi, exec_eq, operandFault_congr (hg.operands _), operandFault_setStatus, hops, heffect i rfl]
  · rw [step_of_not_live hl] at hstep
    cases hstep
    exact step_of_not_live (hl ∘ (hg.live_iff s).mp)

end CarriedAlong

/-- The machine with earlier output not yet drained. -/
def State.prependOutput (o : List Int) (s : State) : State := { s with output := o ++ s.output }

/-- The machine with another fault record. -/
def State.setFault (r : Option FaultRecord) (s : State) : State := { s with fault := r }

theorem carriedAlong_prependOutput (o : List Int) : CarriedAlong (State.prependOutput o) :=
  ⟨fun _ => ⟨rfl, rfl, rfl⟩, fun _ => rfl, fun _ _ _ => rfl, fun _ _ => rfl, fun _ _ => rfl, fun _ _ => rfl⟩

theorem carriedAlong_appendInput (ws : List Int) : CarriedAlong (appendInput · ws) :=
  ⟨fun _ => ⟨rfl, rfl, rfl⟩, fun _ => rfl, fun _ _ _ => rfl, fun _ _ => rfl, fun _ _ => rfl, fun _ _ => rfl⟩

theorem carriedAlong_setFault (r : Option FaultRecord) : CarriedAlong (State.setFault r) :=
  ⟨fun _ => ⟨rfl, rfl, rfl⟩, fun _ => rfl, fun _ _ _ => rfl, fun _ _ => rfl, fun _ _ => rfl, fun _ _ => rfl⟩

/-- A WRITE appends behind the output that is there (10_state.md R27). -/
theorem pushOutput_prependOutput (o : List Int) (s : State) (v : Int) :
    (s.prependOutput o).pushOutput v = (s.pushOutput v).prependOutput o := by
  simp [State.pushOutput, State.prependOutput]

/-- A READ with input pops the same front whatever stands behind it (10_state.md R26). -/
theorem effect_read_appendInput {s : State} (hs : s.status = .running) (ws : List Int) (m : Mode)
    (hgo : (effect s (.read m)).status ≠ .suspendedForInput) :
    effect (appendInput s ws) (.read m) = appendInput (effect s (.read m)) ws := by
  cases hin : s.input with
  | nil => exact absurd ((effect_status_eq_suspended_iff hs _).mpr ⟨m, rfl, hin⟩) hgo
  | cons v rest =>
    have hg := carriedAlong_appendInput ws
    have hpop : (appendInput s ws).input = v :: (rest ++ ws) := by simp [appendInput, hin]
    have hset : (appendInput s ws).setInput (rest ++ ws) = appendInput (s.setInput rest) ws := rfl
    simp only [effect, hin, hpop, destination_congr (hg.operands s), hset, hg.memWrite, hg.advanceIp]

/-- Settles O38: the step carries earlier output along. -/
theorem earlierOutputNeverInfluencesAStep : Obligations.EarlierOutputNeverInfluencesAStep := by
  intro s t o hstep
  have hg := carriedAlong_prependOutput o
  exact hg.step_eq hstep (fun _ _ => rfl) fun i _ =>
    hg.effect_eq (fun m hi => hi ▸ hg.effect_read_eq m rfl fun _ => rfl) (pushOutput_prependOutput o _)
      fun _ _ => rfl

/-- Settles O39: a step that does not suspend carries later input along. -/
theorem laterInputNeverInfluencesAStep : Obligations.LaterInputNeverInfluencesAStep := by
  intro s t ws hstep hgo
  have hg := carriedAlong_appendInput ws
  refine hg.step_eq hstep (fun _ _ => rfl) fun i ht => hg.effect_eq ?_ (fun _ => rfl) fun _ _ => rfl
  rintro m rfl
  exact effect_read_appendInput rfl ws m (ht ▸ hgo)

/-- Settles O40: a step that enters no fault carries any fault record along. -/
theorem faultRecordIsNeverRead : Obligations.FaultRecordIsNeverRead := by
  intro s t r _ hstep hnofault
  have hg := carriedAlong_setFault r
  refine hg.step_eq hstep (fun f ht => ?_) fun i ht =>
    hg.effect_eq (fun m hi => hi ▸ hg.effect_read_eq m rfl fun _ => rfl) (fun _ => rfl) fun f hf => ?_
  · exact absurd (congrArg State.status ht) hnofault
  · exact absurd (congrArg State.status (ht.trans hf)) hnofault

end Sys2Proof.Machine
end

section
/-! Construction, and several machines beside each other (10_state.md R32, R33). -/

namespace Sys2Proof.Machine

/-- An image placed at `base` reads as its words from there on, and as 0 elsewhere (20_memory.md R41). -/
theorem Memory.read_ofImage_at (image : List Int) (base a : Nat) :
    (Memory.ofImage image base).read a = if a < base then 0 else image.getD (a - base) 0 := by
  induction image generalizing base with
  | nil => simp [Memory.ofImage, Memory.read, Memory.blankWord]
  | cons v rest ih =>
    have hcell : (Memory.ofImage (v :: rest) base).read a =
        if a = base then v else (Memory.ofImage rest (base + 1)).read a := by
      by_cases hv : v = Memory.blankWord
      · have hskip : Memory.ofImage (v :: rest) base = Memory.ofImage rest (base + 1) := if_pos hv
        by_cases ha : a = base
        · subst ha
          rw [hskip, ih, if_pos a.lt_succ_self, if_pos rfl, hv, Memory.blankWord]
        · rw [hskip, if_neg ha]
      · simp [Memory.ofImage, hv, Memory.read, eq_comm]
    rw [hcell, ih]
    rcases Nat.lt_trichotomy a base with hlt | rfl | hgt
    · simp [hlt, hlt.ne, hlt.trans base.lt_succ_self]
    · simp
    · have hindex : a - base = a - (base + 1) + 1 := by omega
      simp [hgt.ne', hgt.not_gt, Nat.not_lt.mpr (Nat.succ_le_of_lt hgt), hindex]

/-- The initial memory reads as the image, and as 0 beyond it (20_memory.md R41). -/
theorem Memory.read_ofImage (image : List Int) (a : Nat) : (Memory.ofImage image 0).read a = image.getD a 0 :=
  Memory.read_ofImage_at image 0 a

/-- Settles O46: memory reads as the image, and every other component is the reset state's. -/
theorem constructionSetsEveryResetValue : Obligations.ConstructionSetsEveryResetValue := by
  refine fun image input => ⟨fun a => ?_, rfl, rfl, rfl, rfl, rfl, rfl⟩
  refine (Memory.read_ofImage image a).trans ?_
  split
  · next h => exact List.getD_eq_getElem _ _ h
  · next h => exact List.getD_eq_default _ _ (not_lt.mp h)

/-- The machine at place `k` after the machine at place `i` was replaced: the same, or the replacement. -/
theorem getElem?_of_set {sys : Instances} {i k : Nat} {old new s t : State} (hold : sys[i]? = some old)
    (hs : sys[k]? = some s) (ht : (sys.set i new)[k]? = some t) : (k ≠ i ∧ t = s) ∨ (k = i ∧ s = old ∧ t = new) := by
  by_cases hk : k = i
  · subst hk
    rw [List.getElem?_set_self (List.getElem?_eq_some_iff.mp hs).1] at ht
    cases ht
    cases hold.symm.trans hs
    exact .inr ⟨rfl, rfl, rfl⟩
  · rw [List.getElem?_set_ne (Ne.symm hk)] at ht
    cases hs.symm.trans ht
    exact .inl ⟨hk, rfl⟩

/-- A run call replaces one machine by what it ends in. -/
theorem Instances.eq_set_of_run {sys sys' : Instances} {k fuel : Nat} (h : sys.run k fuel = some sys') :
    ∃ t, sys' = sys.set k t := by
  unfold Instances.run at h
  split at h
  · cases h
  · split at h
    · cases h
    · next t _ => exact ⟨t, (Option.some.inj h).symm⟩

/-- A transfer replaces the sender by the drained one, then the receiver by the fed one (60_exceptions.md R166). -/
theorem Instances.eq_set_set_of_transfer {sys sys' : Instances} {i j n : Nat} (h : sys.transfer i j n = some sys') :
    ∃ s t, sys[i]? = some s ∧ (sys.set i (drainOutput s n).2)[j]? = some t ∧
      sys' = (sys.set i (drainOutput s n).2).set j (appendInput t (drainOutput s n).1) := by
  unfold Instances.transfer at h
  split at h
  · cases h
  · next s hs =>
    dsimp only at h
    split at h
    · cases h
    · next t ht => exact ⟨s, t, hs, ht, (Option.some.inj h).symm⟩

/-- Settles O55: a run call replaces its own machine; a transfer drains the sender's output, which leaves the sender's
other components, and feeds the receiver's input, which leaves the receiver's. -/
theorem machinesShareNoState : Obligations.MachinesShareNoState := by
  refine ⟨fun sys sys' k fuel j hrun hj => ?_, fun sys sys' i j n k s s' htransfer hs hs' => ?_⟩
  · obtain ⟨t, rfl⟩ := Instances.eq_set_of_run hrun
    exact List.getElem?_set_ne hj.symm
  · obtain ⟨sender, receiver, hsender, hreceiver, rfl⟩ := Instances.eq_set_set_of_transfer htransfer
    obtain ⟨u, hu⟩ : ∃ u, (sys.set i (drainOutput sender n).2)[k]? = some u := by
      have hk := (List.getElem?_eq_some_iff.mp hs).1
      exact ⟨_, List.getElem?_eq_getElem (by rwa [List.length_set])⟩
    rcases getElem?_of_set hsender hs hu with ⟨hi, rfl⟩ | ⟨hi, rfl, rfl⟩
    · rcases getElem?_of_set hreceiver hu hs' with ⟨hj, rfl⟩ | ⟨hj, rfl, rfl⟩
      · exact ⟨fun _ => rfl, fun _ => rfl, rfl, rfl, rfl, rfl, rfl⟩
      · exact ⟨fun _ => rfl, fun hne => absurd hj hne, rfl, rfl, rfl, rfl, rfl⟩
    · rcases getElem?_of_set hreceiver hu hs' with ⟨hj, rfl⟩ | ⟨hj, rfl, rfl⟩
      · exact ⟨fun hne => absurd hi hne, fun _ => rfl, rfl, rfl, rfl, rfl, rfl⟩
      · exact ⟨fun hne => absurd hi hne, fun hne => absurd hj hne, rfl, rfl, rfl, rfl, rfl⟩

end Sys2Proof.Machine
end

section
/-! Memory as MemRead and MemWrite see it (20_memory.md R41 to R45): the most recent write, and the canonical form as
what makes memories that read alike equal. -/

namespace Sys2Proof.Machine

/-- A read after a list of writes gives the most recent one, else what the memory held before (20_memory.md R42). -/
theorem Memory.read_writeAll (m : Memory) (writes : List (Nat × Int)) (a : Nat) :
    (writeAll m writes).read a = (latestWrite a writes).getD (m.read a) := by
  induction writes generalizing m with
  | nil => rfl
  | cons p rest ih =>
    obtain ⟨k, v⟩ := p
    simp only [writeAll, latestWrite, ih]
    cases latestWrite a rest with
    | some w => rfl
    | none =>
      by_cases hk : k = a
      · simp [hk]
      · simp [hk, Memory.read_write_other m k a v (Ne.symm hk)]

/-- Settles O6: the writes are read through to the image, which reads as its words and 0 beyond. -/
theorem readGivesMostRecentWriteElseInitialWord : Obligations.ReadGivesMostRecentWriteElseInitialWord := by
  intro image writes a
  rw [Memory.read_writeAll, Memory.read_ofImage]

@[simp] theorem Memory.read_cons_same (a : Nat) (v : Int) (m : Memory) : Memory.read ((a, v) :: m) a = v :=
  if_pos rfl

theorem Memory.read_cons_other {a b : Nat} (v : Int) (m : Memory) (h : b ≠ a) :
    Memory.read ((a, v) :: m) b = m.read b :=
  if_neg h.symm

/-- An address below every cell is not listed. -/
theorem Memory.read_of_lt_cells {m : Memory} {a : Nat} (h : ∀ c ∈ m, a < c.1) : m.read a = Memory.blankWord := by
  induction m with
  | nil => rfl
  | cons c rest ih =>
    obtain ⟨b, w⟩ := c
    obtain ⟨hb, hrest⟩ := List.forall_mem_cons.mp h
    rw [Memory.read_cons_other w rest hb.ne, ih hrest]

/-- The first address of a canonical memory is at most that of a canonical memory that reads alike: it holds a word the
other lists. -/
theorem Memory.first_le_of_read_eq {a b : Nat} {v w : Int} {m m' : Memory} (hwf : Memory.wf ((a, v) :: m) = true)
    (hwf' : Memory.wf ((b, w) :: m') = true)
    (hread : Memory.read ((a, v) :: m) a = Memory.read ((b, w) :: m') a) : b ≤ a := by
  obtain ⟨hv, -, -⟩ := (Memory.wf_cons a v m).mp hwf
  obtain ⟨-, hm', -⟩ := (Memory.wf_cons b w m').mp hwf'
  by_contra! hlt
  have hblank : Memory.read ((b, w) :: m') a = Memory.blankWord :=
    Memory.read_of_lt_cells (List.forall_mem_cons.mpr ⟨hlt, fun c hc => hlt.trans (hm' c hc)⟩)
  exact hv (by rw [← hblank, ← hread, Memory.read_cons_same])

/-- A canonical memory with a cell does not read as the empty one. -/
theorem Memory.read_cons_ne_nil {a : Nat} {v : Int} {m : Memory} (hwf : Memory.wf ((a, v) :: m) = true) :
    Memory.read ((a, v) :: m) a ≠ Memory.read [] a := by
  rw [Memory.read_cons_same]
  exact ((Memory.wf_cons a v m).mp hwf).1

/-- Settles O7, by induction on the cells: the first cells are the same, and behind them the memories still read alike,
since neither lists the first address again. -/
theorem canonicalMemoriesReadingAlikeAreEqual : Obligations.CanonicalMemoriesReadingAlikeAreEqual := by
  intro m
  induction m with
  | nil =>
    rintro (_ | ⟨⟨b, w⟩, m'⟩) - hwf' hread
    · rfl
    · exact absurd (hread b).symm (Memory.read_cons_ne_nil hwf')
  | cons c m ih =>
    obtain ⟨a, v⟩ := c
    rintro (_ | ⟨⟨b, w⟩, m'⟩) hwf hwf' hread
    · exact absurd (hread a) (Memory.read_cons_ne_nil hwf)
    · obtain rfl : a = b :=
        le_antisymm (Memory.first_le_of_read_eq hwf' hwf (hread b).symm) (Memory.first_le_of_read_eq hwf hwf' (hread a))
      obtain rfl : v = w := by simpa using hread a
      obtain ⟨-, hm, hwfm⟩ := (Memory.wf_cons a v m).mp hwf
      obtain ⟨-, hm', hwfm'⟩ := (Memory.wf_cons a v m').mp hwf'
      have hrest : ∀ x, Memory.read m x = Memory.read m' x := by
        intro x
        by_cases hx : x = a
        · rw [hx, Memory.read_of_lt_cells hm, Memory.read_of_lt_cells hm']
        · simpa only [Memory.read_cons_other v _ hx] using hread x
      rw [ih m' hwfm hwfm' hrest]

end Sys2Proof.Machine
end

section
/-! The frames of the instructions (20_memory.md R50, 40_pipeline.md R93): which component an effect can change, and the
one address it can store to. -/

namespace Sys2Proof.Machine

/-- Only READ takes from the input (10_state.md R26). -/
theorem effect_input {s : State} {i : Instr} (h : ∀ m, i ≠ .read m) : (effect s i).input = s.input := by
  cases i with
  | add | mul | write | lt | eq | arb | halt => rfl
  | read m0 => exact absurd rfl (h m0)
  | jnz | jz =>
    simp only [effect]
    split_ifs <;> rfl

/-- Only WRITE appends to the output (10_state.md R27). -/
theorem effect_output {s : State} {i : Instr} (h : ∀ m, i ≠ .write m) : (effect s i).output = s.output := by
  cases i with
  | add | mul | lt | eq | arb | halt => rfl
  | read m0 => cases hin : s.input <;> simp [effect, hin]
  | write m0 => exact absurd rfl (h m0)
  | jnz | jz =>
    simp only [effect]
    split_ifs <;> rfl

/-- A READ without input only suspends the machine (42_io.md R110). -/
theorem effect_read_of_input_eq_nil {s : State} (m : Mode) (h : s.input = []) :
    effect s (.read m) = s.setStatus .suspendedForInput := by
  simp only [effect, h]

theorem takesJumpTo.jumpsBelowZero {s : State} {i : Instr} {target : Int} (h : takesJumpTo s i target)
    (hneg : target < 0) : jumpsBelowZero s i := by
  obtain ⟨m0, m1, ⟨rfl, htaken⟩ | ⟨rfl, htaken⟩, rfl⟩ := h <;> exact ⟨htaken, hneg⟩

/-- An effect enters no fault but that of a jump to a negative target (43_control.md R122). -/
theorem effect_fault {s : State} {i : Instr} (h : ¬ jumpsBelowZero s i) : (effect s i).fault = s.fault := by
  rcases effect_cases s i with ⟨-, heq⟩ | ⟨m, -, -, heq⟩ | ⟨target, hjump, hneg, -⟩ | hgo
  · rw [heq, State.setStatus_fault]
  · rw [heq, State.setStatus_fault]
  · exact absurd (hjump.jumpsBelowZero hneg) h
  · exact hgo.fault

/-- An effect changes the status by HALT, by a suspension or by a fault only (10_state.md R24). -/
theorem effect_status {s : State} {i : Instr} (h : ¬ jumpsBelowZero s i) (hhalt : i ≠ .halt)
    (hinput : ∀ m, i = .read m → s.input ≠ []) : (effect s i).status = s.status := by
  rcases effect_cases s i with ⟨hi, -⟩ | ⟨m, hi, hin, -⟩ | ⟨target, hjump, hneg, -⟩ | hgo
  · exact absurd hi hhalt
  · exact absurd hin (hinput m hi)
  · exact absurd (hjump.jumpsBelowZero hneg) h
  · exact hgo.status

/-- An effect changes at most the word at the destination of the instruction's Write slot (20_memory.md R50). -/
theorem write_slot_of_effect_read_ne {s : State} {i : Instr} {a : Nat}
    (h : (effect s i).mem.read a ≠ s.mem.read a) :
    ∃ slot m, i.slots[slot]? = some (.write, m) ∧ a = destination s slot m := by
  rcases effect_cases s i with ⟨-, heq⟩ | ⟨m, -, -, heq⟩ | ⟨target, -, -, heq⟩ | hgo
  · exact absurd (by rw [heq, State.setStatus_mem]) h
  · exact absurd (by rw [heq, State.setStatus_mem]) h
  · exact absurd (by rw [heq, State.enterFault_mem]) h
  · rcases hgo.mem with hsame | ⟨slot, m, v, hslot, hwrite⟩
    · exact absurd (by rw [hsame]) h
    · refine ⟨slot, m, hslot, ?_⟩
      by_contra hne
      exact h (by rw [hwrite, Memory.read_write_other _ _ _ _ hne])

theorem resolveWrite_of_slotFault_eq_none {s : State} {slot : Nat} {m : Mode} (h : slotFault s slot .write m = none) :
    resolveWriteOn Config.hw s slot m = .ok (destination s slot m) := by
  rw [resolveWrite_eq, h]

section Exec
variable {s t : State} {i : Instr} (hexec : exec i s = .next t)
include hexec

theorem exec_rb (hi : ∀ m, i ≠ .arb m) : t.rb = s.rb :=
  arbAloneAddsToTheRelativeBase.2 s t i hexec hi

theorem exec_input (hi : ∀ m, i ≠ .read m) : t.input = s.input := by
  rcases exec_cases hexec with ⟨f, -, rfl⟩ | ⟨-, rfl⟩
  · rfl
  · exact effect_input hi

theorem exec_output (hi : ∀ m, i ≠ .write m) : t.output = s.output := by
  rcases exec_cases hexec with ⟨f, -, rfl⟩ | ⟨-, rfl⟩
  · rfl
  · exact effect_output hi

theorem eq_effect_of_exec (hops : operandFault s i = none) : t = effect s i := by
  rcases exec_cases hexec with ⟨f, hf, -⟩ | ⟨-, heq⟩
  · exact absurd (hf.symm.trans hops) nofun
  · exact heq

theorem eq_enterFault_of_exec (hops : operandFault s i ≠ none) : ∃ f, t = s.enterFault f := by
  rcases exec_cases hexec with ⟨f, -, heq⟩ | ⟨hnone, -⟩
  · exact ⟨f, heq⟩
  · exact absurd hnone hops

/-- An instruction changes a word only at the address its Write slot resolves to (20_memory.md R50). -/
theorem write_slot_of_exec_read_ne {a : Nat} (h : t.mem.read a ≠ s.mem.read a) :
    ∃ slot m, i.slots[slot]? = some (.write, m) ∧ resolveWriteOn Config.hw s slot m = .ok a := by
  rcases exec_cases hexec with ⟨f, -, rfl⟩ | ⟨hops, rfl⟩
  · exact absurd rfl h
  · obtain ⟨slot, m, hslot, rfl⟩ := write_slot_of_effect_read_ne h
    exact ⟨slot, m, hslot, resolveWrite_of_slotFault_eq_none (slotFault_of_operandFault_eq_none hops hslot)⟩

end Exec

/-- The only Write slot of the format F4 is slot 2. -/
theorem write_slot_of_threeOperand {m0 m1 m2 m : Mode} {slot : Nat}
    (h : [(Intent.read, m0), (.read, m1), (.write, m2)][slot]? = some (.write, m)) : slot = 2 ∧ m = m2 := by
  match slot with
  | 0 | 1 => cases h
  | 2 => cases h; exact ⟨rfl, rfl⟩
  | n + 3 => cases h

/-- Settles O29: an F4 instruction is none of those that change `rb`, a queue or the status, and stores by slot 2. -/
theorem frameOfThreeOperandInstructions : Obligations.FrameOfThreeOperandInstructions := by
  intro s t i m0 m1 m2 hi hexec
  have hslots : i.slots = [(.read, m0), (.read, m1), (.write, m2)] := by
    rcases hi with rfl | rfl | rfl | rfl <;> rfl
  obtain ⟨harb, hread, hwrite, hhalt, hjump⟩ : (∀ m, i ≠ .arb m) ∧ (∀ m, i ≠ .read m) ∧ (∀ m, i ≠ .write m) ∧
      i ≠ .halt ∧ ¬ jumpsBelowZero s i := by
    rcases hi with rfl | rfl | rfl | rfl <;> exact ⟨nofun, nofun, nofun, nofun, id⟩
  refine ⟨exec_rb hexec harb, exec_input hexec hread, exec_output hexec hwrite, fun a ha => ?_, fun hops a => ?_,
    fun hops => ?_⟩
  · by_contra hne
    obtain ⟨slot, m, hslot, hresolve⟩ := write_slot_of_exec_read_ne hexec hne
    obtain ⟨rfl, rfl⟩ := write_slot_of_threeOperand (hslots ▸ hslot)
    exact ha hresolve
  · obtain ⟨f, rfl⟩ := eq_enterFault_of_exec hexec hops
    rfl
  · rw [eq_effect_of_exec hexec hops]
    exact ⟨effect_status hjump hhalt fun m hm => absurd hm (hread m), effect_fault hjump⟩

/-- The only Write slot of READ is slot 0. -/
theorem write_slot_of_read {m0 m : Mode} {slot : Nat} (h : (Instr.read m0).slots[slot]? = some (.write, m)) :
    slot = 0 ∧ m = m0 := by
  match slot with
  | 0 => cases h; exact ⟨rfl, rfl⟩
  | n + 1 => cases h

/-- Settles O30: READ stores by slot 0; without input its effect is the suspension, and an operand fault leaves memory
and the input. -/
theorem frameOfRead : Obligations.FrameOfRead := by
  intro s t m0 hexec
  refine ⟨exec_rb hexec nofun, exec_output hexec nofun, fun a ha => ?_, fun hin => ?_, fun hops => ?_, fun hops => ?_⟩
  · by_contra hne
    obtain ⟨slot, m, hslot, hresolve⟩ := write_slot_of_exec_read_ne hexec hne
    obtain ⟨rfl, rfl⟩ := write_slot_of_read hslot
    exact ha hresolve
  · rcases exec_cases hexec with ⟨f, -, rfl⟩ | ⟨-, rfl⟩
    · exact ⟨hin, fun _ => rfl⟩
    · rw [effect_read_of_input_eq_nil m0 hin]
      exact ⟨hin, fun _ => rfl⟩
  · obtain ⟨f, rfl⟩ := eq_enterFault_of_exec hexec hops
    rfl
  · rw [eq_effect_of_exec hexec hops]
    exact ⟨effect_fault id, fun hin => effect_status id nofun fun _ _ => hin⟩

/-- Settles O31: these instructions have no Write slot and are no READ; HALT alone of their effects sets the status. -/
theorem frameOfInstructionsThatStoreNothing : Obligations.FrameOfInstructionsThatStoreNothing := by
  intro s t i hi hexec
  have hread : ∀ m, i ≠ .read m := by
    rcases hi with ⟨m, rfl⟩ | ⟨m0, m1, rfl⟩ | ⟨m0, m1, rfl⟩ | ⟨m, rfl⟩ | rfl <;> exact nofun
  have hslots : ∀ m, (.write, m) ∉ i.slots := by
    rcases hi with ⟨m, rfl⟩ | ⟨m0, m1, rfl⟩ | ⟨m0, m1, rfl⟩ | ⟨m, rfl⟩ | rfl <;>
      simp [Instr.slots, Instr.opcode, Opcode.intents, Instr.modes]
  refine ⟨fun a => ?_, exec_input hexec hread, exec_output hexec, exec_rb hexec, fun hops hjump => ?_, ?_⟩
  · by_contra hne
    obtain ⟨slot, m, hslot, -⟩ := write_slot_of_exec_read_ne hexec hne
    exact hslots m (List.mem_of_getElem? hslot)
  · rw [eq_effect_of_exec hexec hops]
    exact ⟨effect_fault hjump, fun hhalt => effect_status hjump hhalt fun m hm => absurd hm (hread m)⟩
  · rintro rfl
    rw [eq_effect_of_exec hexec rfl]
    rfl

/-- Settles O34: a step that stays or faults keeps memory, and an effect changes its Write slot's destination only. -/
theorem onlyTheWriteSlotsDestinationChanges : Obligations.OnlyTheWriteSlotsDestinationChanges := by
  intro s t a hstep hne
  rcases step_cases hstep with ⟨-, rfl⟩ | ⟨-, f, -, rfl⟩ | ⟨-, i, -, f, -, rfl⟩ | ⟨-, i, hfetch, -, rfl⟩
  · exact absurd rfl hne
  · exact absurd rfl hne
  · exact absurd rfl hne
  · obtain ⟨slot, m, hslot, ha⟩ := write_slot_of_effect_read_ne (s := s.setStatus .running) hne
    exact ⟨i, slot, m, hfetch, hslot, ha.trans (destination_congr (sameOperands_setStatus s .running) slot m)⟩

/-- The instruction at an `ip` the memory unit accepts is what its word decodes to (40_pipeline.md R82, R83). -/
theorem fetchDecode_of_decode {s : State} {i : Instr} (hip : s.ip ≤ Config.hw.addrMax)
    (h : decode (s.mem.read s.ip) = .ok i) : fetchDecode s = .ok i := by
  have hdecode : decodeOn Config.hw (s.mem.read s.ip) = .ok i := h
  simp only [fetchDecode, fetchDecodeOn, hip, if_true, hdecode]

/-- Settles O37: the sum is stored where `ip` goes, an address the resolver has accepted, so the next fetch reads it. -/
theorem storedWordIsTheNextInstructionFetched : Obligations.StoredWordIsTheNextInstructionFetched := by
  intro s t m0 m1 m2 j hs hfetch hops hdest hdecode hstep
  have hexec : exec (.add m0 m1 m2) s = .next t := by rw [← hstep, step_running s hs, hfetch]
  have heffect : t = (s.memWrite (s.ip + 4) (readValue s 0 m0 + readValue s 1 m1)).advanceIp 4 := by
    rw [← hdest]
    exact eq_effect_of_exec hexec hops
  have hstatus : t.status = .running := by rw [heffect]; exact hs
  have hip : t.ip ≤ Config.hw.addrMax := by
    rw [heffect, State.advanceIp_ip, State.memWrite_ip, ← hdest]
    exact destination_le_addrMax s 2 m2 (slotFault_of_operandFault_eq_none hops rfl)
  have hword : t.mem.read t.ip = readValue s 0 m0 + readValue s 1 m1 := by simp [heffect]
  rw [step_running t hstatus, fetchDecode_of_decode hip (hword ▸ hdecode)]

end Sys2Proof.Machine
end

section
/-! The decoder on this hardware (30_encoding.md R61 to R73): the words of an opcode, the digits of its own slots, and the
instructions and rejections they give. -/

namespace Sys2Proof

/-! ## The opcode and the mode digits -/

theorem Opcode.code_lt_hundred (op : Opcode) : op.code < 100 := by
  cases op <;> decide

theorem Opcode.code_of_ofCode?_eq_some {n : Nat} {op : Opcode} (h : Opcode.ofCode? n = some op) : op.code = n := by
  unfold Opcode.ofCode? at h
  split at h <;> cases h <;> rfl

theorem Opcode.ofCode?_eq_none_iff {n : Nat} : Opcode.ofCode? n = none ↔ ∀ op : Opcode, op.code ≠ n := by
  constructor
  · rintro h op rfl
    rw [Opcode.ofCode?_code] at h
    cases h
  · intro h
    cases hn : Opcode.ofCode? n with
    | none => rfl
    | some op => exact absurd (Opcode.code_of_ofCode?_eq_some hn) (h op)

theorem Mode.digit_le_two (m : Mode) : m.digit ≤ 2 := by
  cases m <;> decide

/-- A digit up to 2 is the digit of a mode (R64). -/
theorem Mode.exists_digit_eq {d : Nat} (h : d ≤ 2) : ∃ m : Mode, m.digit = d := by
  match d with
  | 0 => exact ⟨.position, rfl⟩
  | 1 => exact ⟨.immediate, rfl⟩
  | 2 => exact ⟨.relative, rfl⟩

theorem modeDigit_lt_ten (w slot : Nat) : modeDigit w slot < 10 := Nat.mod_lt _ (by decide)

/-- A slot decodes to the mode whose digit it holds (R64). -/
theorem slotModeOn_hw_eq_ok_iff {w slot : Nat} {m : Mode} :
    slotModeOn Config.hw w slot = .ok m ↔ m.digit = modeDigit w slot := by
  refine ⟨fun h => ?_, slotModeOn_of_enabled m.mem_enabledModes_hw⟩
  unfold slotModeOn at h
  split at h
  · next m' hm' =>
    rw [if_pos m'.mem_enabledModes_hw] at h
    cases h
    exact Mode.digit_of_ofDigit?_eq_some hm'
  · cases h

/-! ## The modes of an opcode's own slots -/

theorem except_bind_eq_ok_iff {ε α β : Type} {x : Except ε α} {f : α → Except ε β} {b : β} :
    (x >>= f) = .ok b ↔ ∃ a, x = .ok a ∧ f a = .ok b := by
  cases x with
  | ok a => exact ⟨fun h => ⟨a, rfl, h⟩, fun ⟨_, hx, h⟩ => by cases hx; exact h⟩
  | error e => exact ⟨nofun, nofun⟩

/-- The digits of the first `n` slots of a word, in slot order (R62). -/
def modeDigits (w n : Nat) : List Nat := (List.range n).map (modeDigit w)

@[simp] theorem modeDigits_zero (w : Nat) : modeDigits w 0 = [] := rfl

@[simp] theorem modeDigits_succ (w n : Nat) : modeDigits w (n + 1) = modeDigits w n ++ [modeDigit w n] := by
  simp [modeDigits, List.range_succ]

@[simp] theorem length_modeDigits (w n : Nat) : (modeDigits w n).length = n := by
  simp [modeDigits]

theorem Instr.length_modes (i : Instr) : i.modes.length = i.opcode.operandCount := by
  cases i <;> rfl

section Slots
variable {w : Nat} {i : Instr}

theorem oneSlotOn_hw_eq_ok_iff {mk : Mode → Instr} :
    oneSlotOn Config.hw w mk = .ok i ↔ ∃ m0, [m0.digit] = modeDigits w 1 ∧ mk m0 = i := by
  simp [oneSlotOn, except_bind_eq_ok_iff, slotModeOn_hw_eq_ok_iff, pure, Except.pure]

theorem twoSlotsOn_hw_eq_ok_iff {mk : Mode → Mode → Instr} :
    twoSlotsOn Config.hw w mk = .ok i ↔ ∃ m0 m1, [m0.digit, m1.digit] = modeDigits w 2 ∧ mk m0 m1 = i := by
  simp [twoSlotsOn, except_bind_eq_ok_iff, slotModeOn_hw_eq_ok_iff, pure, Except.pure, and_assoc]

theorem threeSlotsOn_hw_eq_ok_iff {mk : Mode → Mode → Mode → Instr} :
    threeSlotsOn Config.hw w mk = .ok i ↔
      ∃ m0 m1 m2, [m0.digit, m1.digit, m2.digit] = modeDigits w 3 ∧ mk m0 m1 m2 = i := by
  simp [threeSlotsOn, except_bind_eq_ok_iff, slotModeOn_hw_eq_ok_iff, pure, Except.pure, and_assoc]

/-- An opcode decodes to its own instruction with the modes whose digits its own slots hold (R63, R66). -/
theorem decodeSlotsOn_hw_eq_ok_iff {op : Opcode} :
    decodeSlotsOn Config.hw w op = .ok i ↔
      i.opcode = op ∧ i.modes.map Mode.digit = modeDigits w op.operandCount := by
  constructor
  · intro h
    cases op with
    | add | mul | lt | eq =>
      obtain ⟨m0, m1, m2, hdigits, rfl⟩ := threeSlotsOn_hw_eq_ok_iff.mp h
      exact ⟨rfl, hdigits⟩
    | jnz | jz =>
      obtain ⟨m0, m1, hdigits, rfl⟩ := twoSlotsOn_hw_eq_ok_iff.mp h
      exact ⟨rfl, hdigits⟩
    | read | write | arb =>
      obtain ⟨m0, hdigits, rfl⟩ := oneSlotOn_hw_eq_ok_iff.mp h
      exact ⟨rfl, hdigits⟩
    | halt =>
      cases h
      exact ⟨rfl, rfl⟩
  · rintro ⟨rfl, hdigits⟩
    cases i with
    | add m0 m1 m2 | mul m0 m1 m2 | lt m0 m1 m2 | eq m0 m1 m2 =>
      exact threeSlotsOn_hw_eq_ok_iff.mpr ⟨m0, m1, m2, hdigits, rfl⟩
    | jnz m0 m1 | jz m0 m1 => exact twoSlotsOn_hw_eq_ok_iff.mpr ⟨m0, m1, hdigits, rfl⟩
    | read m0 | write m0 | arb m0 => exact oneSlotOn_hw_eq_ok_iff.mpr ⟨m0, hdigits, rfl⟩
    | halt => rfl

end Slots

/-- The first bad slot of a word on this hardware is its first one with a digit above 2 (R64, R73). -/
theorem firstBadSlot_hw_iff {w slot : Nat} {e : DecodeError} :
    FirstBadSlot Config.hw w slot e ↔
      e = .mode slot (modeDigit w slot) ∧ 2 < modeDigit w slot ∧ ∀ j, j < slot → modeDigit w j ≤ 2 := by
  constructor
  · intro h
    obtain ⟨he, hbad⟩ := slotModeOn_hw_eq_error h.bad
    refine ⟨he, hbad, fun j hj => ?_⟩
    obtain ⟨m, hm⟩ := h.earlier j hj
    exact slotModeOn_hw_eq_ok_iff.mp hm ▸ m.digit_le_two
  · rintro ⟨rfl, hbad, hearlier⟩
    exact
      { bad := slotModeOn_of_disabled fun m hm => absurd m.digit_le_two (by omega)
        earlier := fun j hj => (Mode.exists_digit_eq (hearlier j hj)).imp fun _ => slotModeOn_hw_eq_ok_iff.mpr }

/-- An opcode rejects exactly the first digit above 2 of its own slots (R63, R64, R73). -/
theorem decodeSlotsOn_hw_eq_error_iff {w : Nat} {op : Opcode} {e : DecodeError} :
    decodeSlotsOn Config.hw w op = .error e ↔
      ∃ slot, slot < op.operandCount ∧ e = .mode slot (modeDigit w slot) ∧ 2 < modeDigit w slot ∧
        ∀ j, j < slot → modeDigit w j ≤ 2 := by
  constructor
  · intro h
    obtain ⟨slot, hslot, hfirst⟩ := firstBadSlot_of_decodeSlotsOn_eq_error h
    exact ⟨slot, hslot, firstBadSlot_hw_iff.mp hfirst⟩
  · rintro ⟨slot, hslot, hbad⟩
    exact (firstBadSlot_hw_iff.mpr hbad).decodeSlotsOn_eq op hslot

/-! ## The word -/

theorem decode_of_code {n : Nat} {op : Opcode} (hop : op.code = n % 100) :
    decode (n : Int) = decodeSlotsOn Config.hw n op :=
  (decodeOn_of_code Config.hw hop).trans (if_pos op.mem_enabledOpcodes_hw)

/-- What decoding does with a word: it rejects it for its sign or its opcode value, or takes the modes of its opcode
(R65, R67, R73). -/
theorem decode_cases (w : Int) :
    ((w < 0 ∨ ∀ op : Opcode, op.code ≠ w.toNat % 100) ∧ decode w = .error (.opcode w)) ∨
    ∃ (n : Nat) (op : Opcode), w = n ∧ op.code = n % 100 ∧ decode w = decodeSlotsOn Config.hw n op := by
  rcases lt_or_ge w 0 with hneg | hnonneg
  · exact .inl ⟨.inl hneg, if_pos hneg⟩
  · obtain ⟨n, rfl⟩ := Int.eq_ofNat_of_zero_le hnonneg
    cases hcode : Opcode.ofCode? (opcodeField n) with
    | none =>
      refine .inl ⟨.inr (Opcode.ofCode?_eq_none_iff.mp hcode), ?_⟩
      simp only [decode, decodeOn, not_lt.mpr hnonneg, if_false, Int.toNat_natCast, hcode]
    | some op =>
      have hop : op.code = n % 100 := Opcode.code_of_ofCode?_eq_some hcode
      exact .inr ⟨n, op, rfl, hop, decode_of_code hop⟩

/-- A word decodes to an instruction exactly if it has its opcode value and the digits of its modes (R61, R62). -/
theorem decode_eq_ok_iff {n : Nat} {i : Instr} :
    decode (n : Int) = .ok i ↔
      i.opcode.code = n % 100 ∧ i.modes.map Mode.digit = modeDigits n i.opcode.operandCount := by
  constructor
  · intro h
    rcases decode_cases n with ⟨-, herror⟩ | ⟨n', op, hn, hop, hdecode⟩
    · rw [herror] at h
      cases h
    · obtain rfl : n = n' := by exact_mod_cast hn
      obtain ⟨rfl, hdigits⟩ := decodeSlotsOn_hw_eq_ok_iff.mp (hdecode.symm.trans h)
      exact ⟨hop, hdigits⟩
  · rintro ⟨hop, hdigits⟩
    rw [decode_of_code hop]
    exact decodeSlotsOn_hw_eq_ok_iff.mpr ⟨rfl, hdigits⟩

end Sys2Proof
end

section
/-! The canonical word of an instruction (30_encoding.md R74), and the decoder's statements: which words decode, and how
the others are rejected (R63 to R75). -/

namespace Sys2Proof

/-- The canonical word of every instruction decodes to it and has no higher digits (R74). -/
theorem encode_canonical (i : Instr) : Laws.Canonical.Statement i := by
  cases i with
  | add m0 m1 m2 => exact Laws.Canonical.add m0 m1 m2
  | mul m0 m1 m2 => exact Laws.Canonical.mul m0 m1 m2
  | read m0 => exact Laws.Canonical.read m0
  | write m0 => exact Laws.Canonical.write m0
  | jnz m0 m1 => exact Laws.Canonical.jnz m0 m1
  | jz m0 m1 => exact Laws.Canonical.jz m0 m1
  | lt m0 m1 m2 => exact Laws.Canonical.lt m0 m1 m2
  | eq m0 m1 m2 => exact Laws.Canonical.eq m0 m1 m2
  | arb m0 => exact Laws.Canonical.arb m0
  | halt => exact Laws.Canonical.halt

/-- The canonical word holds the opcode value below the digits of the modes (R74). -/
theorem encodeNat_eq_ofDigits (i : Instr) :
    encodeNat i = i.opcode.code + 100 * Nat.ofDigits 10 (i.modes.map Mode.digit) := by
  cases i <;> simp [encodeNat, Instr.opcode, Opcode.code, Instr.modes, Nat.ofDigits] <;> ring

/-- The last digits of a word are its opcode value below its mode digits (R61, R62). -/
theorem mod_pow_eq_ofDigits_modeDigits (w n : Nat) :
    w % 10 ^ (n + 2) = w % 100 + 100 * Nat.ofDigits 10 (modeDigits w n) := by
  induction n with
  | zero => rfl
  | succ n ih =>
    calc w % 10 ^ (n + 2 + 1)
        = w % 10 ^ (n + 2) + 10 ^ (n + 2) * modeDigit w n := Nat.mod_pow_succ
      _ = w % 100 + 100 * Nat.ofDigits 10 (modeDigits w (n + 1)) := by
        rw [ih, modeDigits_succ, Nat.ofDigits_append, length_modeDigits, Nat.ofDigits_singleton]
        ring

/-- The last digits of a word are a canonical word exactly if opcode value and mode digits are its own. -/
theorem encodeNat_eq_mod_pow_iff {i : Instr} {n : Nat} :
    encodeNat i = n % 10 ^ (i.opcode.operandCount + 2) ↔
      i.opcode.code = n % 100 ∧ i.modes.map Mode.digit = modeDigits n i.opcode.operandCount := by
  rw [encodeNat_eq_ofDigits, mod_pow_eq_ofDigits_modeDigits]
  constructor
  · intro h
    have hcode := i.opcode.code_lt_hundred
    refine ⟨by omega, Nat.ofDigits_inj_of_len_eq (b := 10) (by decide) ?_ ?_ ?_ (by omega)⟩
    · rw [List.length_map, length_modeDigits, i.length_modes]
    · intro d hd
      obtain ⟨m, -, rfl⟩ := List.mem_map.mp hd
      exact m.digit_le_two.trans_lt (by decide)
    · intro d hd
      obtain ⟨slot, -, rfl⟩ := List.mem_map.mp hd
      exact modeDigit_lt_ten n slot
  · rintro ⟨hcode, hdigits⟩
    rw [hcode, hdigits]

theorem decode_eq_ok_iff_encodeNat_eq_mod {n : Nat} {i : Instr} :
    decode (n : Int) = .ok i ↔ encodeNat i = n % 10 ^ (i.opcode.operandCount + 2) :=
  decode_eq_ok_iff.trans encodeNat_eq_mod_pow_iff.symm

/-- Settles O2: a word decodes to the instruction whose canonical word its last digits are; the quotient is what is
ignored. -/
theorem instructionWordsAreCanonicalWordPlusIgnoredDigits :
    Obligations.InstructionWordsAreCanonicalWordPlusIgnoredDigits := by
  intro w i
  constructor
  · intro h
    rcases decode_cases w with ⟨-, herror⟩ | ⟨n, -, rfl, -, -⟩
    · rw [herror] at h
      cases h
    · refine ⟨n / 10 ^ (i.opcode.operandCount + 2), ?_⟩
      have hmod := decode_eq_ok_iff_encodeNat_eq_mod.mp h
      have hsum : n = encodeNat i + n / 10 ^ (i.opcode.operandCount + 2) * 10 ^ (i.opcode.operandCount + 2) := by
        rw [hmod, Nat.mod_add_div']
      exact congrArg Nat.cast hsum
  · rintro ⟨k, rfl⟩
    have hmod : encodeNat i =
        (encodeNat i + k * 10 ^ (i.opcode.operandCount + 2)) % 10 ^ (i.opcode.operandCount + 2) := by
      rw [Nat.add_mul_mod_self_right, Nat.mod_eq_of_lt (encode_canonical i).2]
    exact decode_eq_ok_iff_encodeNat_eq_mod.mpr hmod

/-- Settles O3: a word with the opcode value of an operation is rejected for a mode digit only. -/
theorem opcodeRejectionIsExact : Obligations.OpcodeRejectionIsExact := by
  intro w v
  rcases decode_cases w with ⟨hw, hdecode⟩ | ⟨n, op, rfl, hop, hdecode⟩
  · rw [hdecode]
    constructor
    · intro h
      cases h
      exact ⟨rfl, hw⟩
    · rintro ⟨rfl, -⟩
      rfl
  · rw [hdecode]
    constructor
    · intro h
      obtain ⟨slot, -, he, -⟩ := decodeSlotsOn_hw_eq_error_iff.mp h
      cases he
    · rintro ⟨-, hneg | hcode⟩
      · omega
      · exact absurd hop (hcode op)

/-- Settles O4: a word that passes the opcode check is rejected at the first digit above 2 of its own slots. -/
theorem modeRejectionNamesFirstBadDigit : Obligations.ModeRejectionNamesFirstBadDigit := by
  intro w slot digit
  constructor
  · intro h
    rcases decode_cases w with ⟨-, hdecode⟩ | ⟨n, op, rfl, hop, hdecode⟩
    · rw [hdecode] at h
      cases h
    · obtain ⟨slot', hslot, he, hbad, hearlier⟩ := decodeSlotsOn_hw_eq_error_iff.mp (hdecode.symm.trans h)
      cases he
      exact ⟨Int.natCast_nonneg n, op, hop, hslot, rfl, hbad, hearlier⟩
  · rintro ⟨hnonneg, op, hop, hslot, rfl, hbad, hearlier⟩
    obtain ⟨n, rfl⟩ := Int.eq_ofNat_of_zero_le hnonneg
    exact (decode_of_code hop).trans (decodeSlotsOn_hw_eq_error_iff.mpr ⟨slot, hslot, rfl, hbad, hearlier⟩)

/-- Settles O1, word by word. -/
theorem workedExampleWordsDecode : Obligations.WorkedExampleWordsDecode :=
  ⟨rfl, rfl, rfl, rfl, rfl, rfl, rfl, rfl, rfl, rfl, rfl, rfl⟩

end Sys2Proof
end

section
/-! The decimal-string form of the decoder (30_encoding.md R61, R62, R76): the string is the word's digits, padded and
reversed. -/

namespace Sys2Proof

theorem decimalString_eq (w : Nat) : decimalString w = (Nat.digitsAppend 10 2 w).reverse := by
  simp [decimalString, Nat.digitsAppend]

theorem length_decimalString (w : Nat) : (decimalString w).length = (Nat.digitsAppend 10 2 w).length := by
  rw [decimalString_eq, List.length_reverse]

theorem stringValue_eq_ofDigits (ds : List Nat) : stringValue ds = Nat.ofDigits 10 ds.reverse := by
  rw [stringValue, Nat.ofDigits_eq_foldr, List.foldr_reverse]
  simp [Nat.add_comm]

theorem ofDigits_digitsAppend (w : Nat) : Nat.ofDigits 10 (Nat.digitsAppend 10 2 w) = w := by
  rw [Nat.digitsAppend, Nat.ofDigits_append_replicate_zero, Nat.ofDigits_digits]

theorem getD_digitsAppend (w j : Nat) : (Nat.digitsAppend 10 2 w).getD j 0 = w / 10 ^ j % 10 := by
  rw [← Nat.getD_digits w j (by decide), Nat.digitsAppend]
  rcases lt_or_ge j (Nat.digits 10 w).length with hj | hj
  · exact List.getD_append _ _ _ _ hj
  · rw [List.getD_append_right _ _ _ _ hj, List.getD_eq_default _ _ hj]
    exact List.getElem?_getD_replicate_default_eq _ _ _

/-- "the last two digits" of the string are the opcode value (R61). -/
theorem stringValue_last_two {w : Nat} (h : 2 < (decimalString w).length) :
    stringValue ((decimalString w).drop ((decimalString w).length - 2)) = w % 100 := by
  rw [length_decimalString] at h ⊢
  have hlast : (Nat.digitsAppend 10 2 w).length - ((Nat.digitsAppend 10 2 w).length - 2) = 2 := by omega
  rw [decimalString_eq, List.drop_reverse, stringValue_eq_ofDigits, List.reverse_reverse, hlast,
    ← Nat.ofDigits_mod_pow_eq_ofDigits_take 2 (by decide) _
      fun d => Nat.lt_of_mem_digitsAppend (by decide) 2 d, ofDigits_digitsAppend]
  rfl

theorem lt_hundred_of_length_decimalString {w : Nat} (h : (decimalString w).length ≤ 2) : w < 100 := by
  have hpadded : (Nat.digits 10 w).length ≤ (decimalString w).length := by simp [decimalString]
  exact (Nat.digits_length_le_iff (by decide) w).mp (hpadded.trans h)

theorem stringOpcode_eq_mod (w : Nat) : stringOpcode w = w % 100 := by
  by_cases h : (decimalString w).length ≤ 2
  · exact (if_pos h).trans (Nat.mod_eq_of_lt (lt_hundred_of_length_decimalString h)).symm
  · exact (if_neg h).trans (stringValue_last_two (not_le.mp h))

theorem stringModeDigit_eq (w slot : Nat) : stringModeDigit w slot = w / 10 ^ (slot + 2) % 10 := by
  rw [← getD_digitsAppend]
  by_cases h : slot + 3 ≤ (decimalString w).length
  · refine (if_pos h).trans ?_
    rw [length_decimalString] at h ⊢
    rw [decimalString_eq, List.getD_reverse _ (by omega)]
    congr 1
    omega
  · refine (if_neg h).trans (List.getD_eq_default _ _ ?_).symm
    rw [length_decimalString] at h
    omega

/-- Settles O5: the string counts the digits of the word from the left, the arithmetic from the right. -/
theorem stringDecoderAgreesWithArithmetic : Obligations.StringDecoderAgreesWithArithmetic :=
  fun w slot => ⟨stringOpcode_eq_mod w, stringModeDigit_eq w slot⟩

end Sys2Proof
end

section
/-! The words that never complete (30_encoding.md R67, R69), and HALT under every word of it (45_system.md R141). -/

namespace Sys2Proof

/-- The opcode values outside the map are 0 and 10 to 98 (R67). -/
theorem Opcode.code_ne_of_outside_map {n : Nat} (h : n = 0 ∨ 10 ≤ n ∧ n ≤ 98) (op : Opcode) : op.code ≠ n := by
  cases op <;> simp only [Opcode.code] <;> omega

theorem Mode.eq_immediate_of_writable_eq_false {m : Mode} (h : m.writable = false) : m = .immediate := by
  cases m with
  | immediate => rfl
  | position | relative => cases h

/-- An ill-formed instruction has an Immediate Write slot (30_encoding.md R69). -/
theorem exists_immediate_write_slot {i : Instr} (h : i.wellFormed = false) :
    ∃ slot : Nat, i.slots[slot]? = some (Intent.write, Mode.immediate) := by
  cases i with
  | add m0 m1 m2 | mul m0 m1 m2 | lt m0 m1 m2 | eq m0 m1 m2 =>
    obtain rfl := Mode.eq_immediate_of_writable_eq_false h
    exact ⟨2, rfl⟩
  | read m0 =>
    obtain rfl := Mode.eq_immediate_of_writable_eq_false h
    exact ⟨0, rfl⟩
  | write | jnz | jz | arb | halt => cases h

end Sys2Proof

namespace Sys2Proof.Machine

/-- Settles O19: the digits above the opcode value of HALT are those of no slot. -/
theorem haltOnlySetsTheStatus : Obligations.HaltOnlySetsTheStatus := by
  refine ⟨fun k => ?_, fun _ => rfl⟩
  have hcode : 99 = (99 + 100 * k) % 100 := (Nat.add_mul_mod_self_left 99 100 k).symm
  exact decode_eq_ok_iff.mpr ⟨hcode, rfl⟩

/-- Settles O26: a value outside the map is the opcode value of no operation, so decoding rejects the word. -/
theorem unsupportedOpcodesFault : Obligations.UnsupportedOpcodesFault := by
  intro s w hs hip hw hcode
  have hdecode : decode (w : Int) = .error (.opcode w) :=
    (opcodeRejectionIsExact w w).mpr ⟨rfl, .inr (Opcode.code_ne_of_outside_map hcode)⟩
  exact ⟨stepOn_hw s ▸ stepOn_of_decode_error hs hip hw hdecode, rfl⟩

/-- Resolving an Immediate Write slot faults: its word has no address, or WRITE_MODE (40_pipeline.md R88, R91). -/
theorem slotFault_immediate_write_ne_none (s : State) (slot : Nat) : slotFault s slot .write .immediate ≠ none := by
  unfold slotFault
  split
  · exact nofun
  · exact nofun

/-- Settles O21: the Immediate Write slot faults, so some operand faults first. -/
theorem illFormedInstructionsDecodeAndFault : Obligations.IllFormedInstructionsDecodeAndFault := by
  intro i s h
  obtain ⟨slot, hslot⟩ := exists_immediate_write_slot h
  refine ⟨(encode_canonical i).1, ?_⟩
  rw [exec_eq]
  cases hops : operandFault s i with
  | some f => exact ⟨f, rfl⟩
  | none => exact absurd (slotFault_of_operandFault_eq_none hops hslot) (slotFault_immediate_write_ne_none s slot)

end Sys2Proof.Machine
end

section
/-! The resolver by mode and intent (40_pipeline.md R85 to R91): when a slot faults, and with which cause. -/

namespace Sys2Proof.Machine

/-- An address from 0 to ADDR_MAX passes the checks (40_pipeline.md R91 (2)). -/
theorem addressFault_eq_none {kind : AccessKind} {ea : Int} (hnonneg : 0 ≤ ea) (hle : ea ≤ Config.hw.addrMax) :
    addressFault kind ea = none :=
  (if_neg (not_lt.mpr hnonneg)).trans (if_neg (not_lt.mpr hle))

theorem addressFault_of_neg {kind : AccessKind} {ea : Int} (hneg : ea < 0) :
    addressFault kind ea = some (.negativeAddress kind ea) :=
  if_pos hneg

theorem addressFault_of_above {kind : AccessKind} {ea : Int} (habove : (Config.hw.addrMax : Int) < ea) :
    addressFault kind ea = some (.addressRange kind ea) :=
  (if_neg (not_lt.mpr ((Int.natCast_nonneg _).trans habove.le))).trans (if_pos habove)

/-- A slot whose operand word lies above ADDR_MAX faults for it, whatever its mode and intent (R91 (1)). -/
theorem slotFault_of_word_above {s : State} {slot : Nat} (h : Config.hw.addrMax < s.ip + 1 + slot) (intent : Intent)
    (m : Mode) :
    slotFault s slot intent m = some (.addressRange .operandWord ((s.ip + 1 + slot : Nat) : Int)) :=
  if_pos h

section WordInRange
variable {s : State} {slot : Nat} (h : s.ip + 1 + slot ≤ Config.hw.addrMax)
include h

/-- Position and Relative fault for their effective address only (R91 (2)). -/
theorem slotFault_eq_addressFault {m : Mode} (hm : m ≠ .immediate) (intent : Intent) :
    slotFault s slot intent m = addressFault (effectiveKind intent) (effectiveAddress s slot m) :=
  (if_neg (not_lt.mpr h)).trans (if_neg hm)

theorem slotFault_immediate (intent : Intent) :
    slotFault s slot intent .immediate = if intent = .write then some (.writeMode slot) else none :=
  (if_neg (not_lt.mpr h)).trans (if_pos rfl)

section EffectiveAddress
variable {m : Mode} (hm : m ≠ .immediate)
include hm

theorem slotFault_of_address_in_range (hnonneg : 0 ≤ effectiveAddress s slot m)
    (hle : effectiveAddress s slot m ≤ Config.hw.addrMax) (intent : Intent) : slotFault s slot intent m = none :=
  (slotFault_eq_addressFault h hm intent).trans (addressFault_eq_none hnonneg hle)

theorem slotFault_of_address_neg (hneg : effectiveAddress s slot m < 0) (intent : Intent) :
    slotFault s slot intent m = some (.negativeAddress (effectiveKind intent) (effectiveAddress s slot m)) :=
  (slotFault_eq_addressFault h hm intent).trans (addressFault_of_neg hneg)

theorem slotFault_of_address_above (habove : (Config.hw.addrMax : Int) < effectiveAddress s slot m) (intent : Intent) :
    slotFault s slot intent m = some (.addressRange (effectiveKind intent) (effectiveAddress s slot m)) :=
  (slotFault_eq_addressFault h hm intent).trans (addressFault_of_above habove)

end EffectiveAddress

end WordInRange

theorem resolveRead_of_slotFault_eq_none {s : State} {slot : Nat} {m : Mode} (h : slotFault s slot .read m = none) :
    resolveReadOn Config.hw s slot m = .ok (readValue s slot m) := by
  rw [resolveRead_eq, h]

/-- A slot that faults with either intent resolves with neither. -/
theorem resolve_of_slotFault_eq_some {s : State} {slot : Nat} {m : Mode} {f : Intent → Cause}
    (h : ∀ intent, slotFault s slot intent m = some (f intent)) :
    resolveReadOn Config.hw s slot m = .error (f .read) ∧ resolveWriteOn Config.hw s slot m = .error (f .write) := by
  rw [resolveRead_eq, resolveWrite_eq, h, h]
  exact ⟨rfl, rfl⟩

/-- A slot that does not fault is dereferenced by a Read and gives a Write its destination. -/
theorem resolve_of_slotFault_eq_none {s : State} {slot : Nat} {m : Mode}
    (h : ∀ intent, slotFault s slot intent m = none) :
    resolveReadOn Config.hw s slot m = .ok (readValue s slot m) ∧
    resolveWriteOn Config.hw s slot m = .ok (destination s slot m) :=
  ⟨resolveRead_of_slotFault_eq_none (h .read), resolveWrite_of_slotFault_eq_none (h .write)⟩

/-- Settles O8: Position and Relative resolve by their effective address, Immediate is the word itself or WRITE_MODE. -/
theorem resolverFollowsModeAndIntent : Obligations.ResolverFollowsModeAndIntent := by
  rintro s slot w hword rfl
  refine ⟨fun hnonneg hle => ?_, fun hnonneg hle => ?_, ?_, ?_⟩
  · exact resolve_of_slotFault_eq_none (slotFault_of_address_in_range (m := .position) hword nofun hnonneg hle)
  · exact resolve_of_slotFault_eq_none (slotFault_of_address_in_range (m := .relative) hword nofun hnonneg hle)
  · exact resolveRead_of_slotFault_eq_none (slotFault_immediate hword .read)
  · rw [resolveWrite_eq, slotFault_immediate hword]
    rfl

/-- Settles O9: the operand word's address is checked first, then the effective address from below and from above. -/
theorem resolverChecksAddressesInOrder : Obligations.ResolverChecksAddressesInOrder := by
  intro s slot w ea m
  refine ⟨fun habove => ?_, fun hword hw hea => ?_⟩
  · exact resolve_of_slotFault_eq_some fun intent => slotFault_of_word_above habove intent m
  · obtain ⟨hm, rfl⟩ : m ≠ .immediate ∧ effectiveAddress s slot m = ea := by
      subst hw
      rcases hea with ⟨rfl, rfl⟩ | ⟨rfl, rfl⟩ <;> exact ⟨nofun, rfl⟩
    exact ⟨fun hneg => resolve_of_slotFault_eq_some (slotFault_of_address_neg hword hm hneg),
      fun habove => resolve_of_slotFault_eq_some (slotFault_of_address_above hword hm habove)⟩

end Sys2Proof.Machine
end

section
/-! The step (40_pipeline.md R80 to R84, R94): it always answers, it is the meaning of the decoded instruction, and a
fault is entered with nothing else changed. -/

namespace Sys2Proof.Machine

/-- Settles O20: what an instruction answers is its first operand fault, if there is one. -/
theorem firstOperandFaultIsEnteredBeforeAnyEffect : Obligations.FirstOperandFaultIsEnteredBeforeAnyEffect := by
  intro s i f hf
  rw [exec_eq, hf]
  rfl

theorem exec_answers (i : Instr) (s : State) : ∃ t, exec i s = .next t := by
  rw [exec_eq]
  cases operandFault s i with
  | some f => exact ⟨_, rfl⟩
  | none => exact ⟨_, rfl⟩

theorem step_answers (s : State) : ∃ t, step s = .next t := by
  by_cases hl : live s
  · rw [step_of_live hl]
    cases fetchDecode s with
    | ok i => exact exec_answers i _
    | error f => exact ⟨_, rfl⟩
  · exact ⟨s, step_of_not_live hl⟩

/-- Settles O27: the step stays, faults at fetch or decode, or is an instruction, which faults or has its effect. -/
theorem everyStepAndInstructionAnswersANextState : Obligations.EveryStepAndInstructionAnswersANextState :=
  ⟨step_answers, exec_answers⟩

/-- An effect that makes a Running machine Faulted is the fault transition (43_control.md R122). -/
theorem effect_eq_enterFault_of_status {s : State} {i : Instr} (hs : s.status = .running)
    (h : (effect s i).status = .faulted) : ∃ f, effect s i = s.enterFault f := by
  rcases effect_cases s i with ⟨-, heq⟩ | ⟨m, -, -, heq⟩ | ⟨target, -, -, heq⟩ | hgo
  · rw [heq] at h
    cases h
  · rw [heq] at h
    cases h
  · exact ⟨_, heq⟩
  · rw [hgo.status, hs] at h
    cases h

/-- Settles O22: a step that makes the machine Faulted is the fault transition, from fetch or decode, from an operand,
or from a jump. -/
theorem faultingStepCommitsNothing : Obligations.FaultingStepCommitsNothing := by
  intro s t hs hstep hfaulted
  rcases step_cases hstep with ⟨-, rfl⟩ | ⟨-, f, -, rfl⟩ | ⟨-, i, -, f, -, rfl⟩ | ⟨-, i, -, -, rfl⟩
  · exact absurd hfaulted hs
  · exact ⟨f, rfl⟩
  · exact ⟨f, rfl⟩
  · exact effect_eq_enterFault_of_status (s := s.setStatus .running) rfl hfaulted

/-- Settles O24: the word at `ip` is fetched and decoded, and the machine set Running. -/
theorem stepRunsTheDecodedInstruction : Obligations.StepRunsTheDecodedInstruction := by
  intro s i hl hip hdecode
  rw [step_of_live hl, fetchDecode_of_decode hip hdecode]
  rfl

theorem fetchDecode_of_ip_above {s : State} (h : Config.hw.addrMax < s.ip) :
    fetchDecode s = .error (.addressRange .fetch s.ip) :=
  if_neg (not_le.mpr h)

/-- Settles O25: fetch rejects the `ip`, or decode the word. -/
theorem fetchAndDecodeFaultsAreEntered : Obligations.FetchAndDecodeFaultsAreEntered := by
  intro s hs
  have hdecode : ∀ e, s.ip ≤ Config.hw.addrMax → decode (s.mem.read s.ip) = .error e →
      step s = .next (faultedAt s (causeOfDecode e)) :=
    fun e hip he => stepOn_hw s ▸ stepOn_of_decode_error hs hip rfl he
  refine ⟨fun habove => ?_, fun hip w => hdecode (.opcode w) hip,
    fun hip slot digit => hdecode (.mode slot digit) hip⟩
  rw [step_running s hs, fetchDecode_of_ip_above habove]
  rfl

end Sys2Proof.Machine
end

section
/-! Run calls (40_pipeline.md R95 to R99): the loop without its fuel, and the machines between which it runs. -/

namespace Sys2Proof.Machine

theorem setStatus_eq_self {s : State} {v : Status} (h : s.status = v) : s.setStatus v = s := by
  subst h
  rfl

theorem not_live_iff {s : State} : ¬ live s ↔ s.status = .halted ∨ s.status = .faulted := by
  cases h : s.status <;> simp [live, h]

/-- A run call on a Halted or Faulted machine returns at once (40_pipeline.md R95). -/
theorem runCall_of_not_live {s : State} (hl : ¬ live s) (fuel : Nat) : runCall fuel s = some s := by
  rcases not_live_iff.mp hl with h | h <;> simp only [runCall, enterRun, h]

/-- A run call on any other machine is the loop from Running (40_pipeline.md R95). -/
theorem runCall_of_live {s : State} (hl : live s) (fuel : Nat) :
    runCall fuel s = runLoop fuel (s.setStatus .running) := by
  rcases hl with h | h
  · simp only [runCall, enterRun, h, setStatus_eq_self h]
  · simp only [runCall, enterRun, h]

theorem runLoop_of_not_running {s : State} (hs : s.status ≠ .running) (fuel : Nat) : runLoop fuel s = some s := by
  cases fuel with
  | zero => exact if_neg hs
  | succ n => exact if_neg hs

theorem runLoop_zero_of_running {s : State} (hs : s.status = .running) : runLoop 0 s = none := if_pos hs

theorem runLoop_succ_of_step {s u : State} (hs : s.status = .running) (hstep : step s = .next u) (n : Nat) :
    runLoop (n + 1) s = runLoop n u := by
  have hengine : engineStep s = .next u := by simpa only [step, enterRun, hs] using hstep
  simp only [runLoop, hs, if_true, hengine]

/-- The loop of a run call from `s` ends in `t`, whatever fuel it takes (40_pipeline.md R95, R97). -/
inductive RunsTo : State → State → Prop where
  | stop {s : State} (hs : s.status ≠ .running) : RunsTo s s
  | step {s u t : State} (hs : s.status = .running) (hstep : step s = .next u) (hrest : RunsTo u t) : RunsTo s t

theorem runsTo_of_runLoop {fuel : Nat} {s t : State} (h : runLoop fuel s = some t) : RunsTo s t := by
  induction fuel generalizing s with
  | zero =>
    by_cases hs : s.status = .running
    · cases (runLoop_zero_of_running hs).symm.trans h
    · cases (runLoop_of_not_running hs 0).symm.trans h
      exact .stop hs
  | succ n ih =>
    by_cases hs : s.status = .running
    · obtain ⟨u, hstep⟩ := step_answers s
      exact .step hs hstep (ih (runLoop_succ_of_step hs hstep n ▸ h))
    · cases (runLoop_of_not_running hs (n + 1)).symm.trans h
      exact .stop hs

/-- The loop takes a number of steps, and any fuel from there on is enough (40_pipeline.md R98, R99). -/
theorem RunsTo.exists_steps {s t : State} (h : RunsTo s t) :
    ∃ steps, ∀ fuel, runLoop fuel s = some t ↔ steps ≤ fuel := by
  induction h with
  | stop hs => exact ⟨0, fun fuel => iff_of_true (runLoop_of_not_running hs fuel) fuel.zero_le⟩
  | step hs hstep _ ih =>
    obtain ⟨n, hn⟩ := ih
    refine ⟨n + 1, fun fuel => ?_⟩
    cases fuel with
    | zero => simp [runLoop_zero_of_running hs]
    | succ k => rw [runLoop_succ_of_step hs hstep, hn, Nat.succ_le_succ_iff]

theorem RunsTo.status_ne_running {s t : State} (h : RunsTo s t) : t.status ≠ .running := by
  induction h with
  | stop hs => exact hs
  | step _ _ _ ih => exact ih

theorem RunsTo.eq_of_not_running {s t : State} (h : RunsTo s t) (hs : s.status ≠ .running) : t = s := by
  cases h with
  | stop => rfl
  | step hrunning => exact absurd hrunning hs

/-- What every step keeps, the loop keeps. -/
theorem RunsTo.keeps {P : State → Prop} (hP : ∀ s u, P s → Machine.step s = .next u → P u) {s t : State}
    (h : RunsTo s t) (hs : P s) : P t := by
  induction h with
  | stop => exact hs
  | step _ hstep _ ih => exact ih (hP _ _ hs hstep)

/-- What a run call does: it returns at once, or the loop runs from Running to its end. -/
theorem runCall_cases {fuel : Nat} {s t : State} (h : runCall fuel s = some t) :
    (¬ live s ∧ t = s) ∨ (live s ∧ RunsTo (s.setStatus .running) t) := by
  by_cases hl : live s
  · exact .inr ⟨hl, runsTo_of_runLoop (runCall_of_live hl fuel ▸ h)⟩
  · cases (runCall_of_not_live hl fuel).symm.trans h
    exact .inl ⟨hl, rfl⟩

/-- Settles O28: neither the step nor the run call does anything with such a machine. -/
theorem haltedAndFaultedMachinesNeverChange : Obligations.HaltedAndFaultedMachinesNeverChange :=
  fun _ hs => ⟨step_of_not_live (not_live_iff.mpr hs), runCall_of_not_live (not_live_iff.mpr hs)⟩

/-- Settles O42: a run call returns a Halted or Faulted machine at once, and its loop ends when the machine is not
Running. -/
theorem runCallEndsOnlyWhenNotRunning : Obligations.RunCallEndsOnlyWhenNotRunning := by
  intro fuel s t h
  rcases runCall_cases h with ⟨hnl, rfl⟩ | ⟨-, hruns⟩
  · exact .inr (not_live_iff.mp hnl)
  · have hstop := hruns.status_ne_running
    cases hs : t.status with
    | running => exact absurd hs hstop
    | suspendedForInput => exact .inl rfl
    | halted => exact .inr (.inl rfl)
    | faulted => exact .inr (.inr rfl)

/-- Settles O43: fuel that was enough for the loop's steps is enough with more. -/
theorem moreFuelGivesTheSameRunCall : Obligations.MoreFuelGivesTheSameRunCall := by
  intro n k s t h
  by_cases hl : live s
  · rw [runCall_of_live hl] at h ⊢
    obtain ⟨steps, hsteps⟩ := (runsTo_of_runLoop h).exists_steps
    exact (hsteps _).mpr (((hsteps n).mp h).trans (Nat.le_add_right n k))
  · rwa [runCall_of_not_live hl] at h ⊢

end Sys2Proof.Machine
end

section
/-! Suspension and the host's actions (42_io.md R110, 40_pipeline.md R95, R96): a suspended READ is retried, and feeding
it then is feeding it from the start. -/

namespace Sys2Proof.Machine

theorem step_eq_effect {s : State} {i : Instr} (hs : s.status = .running) (hfetch : fetchDecode s = .ok i)
    (hops : operandFault s i = none) : step s = .next (effect s i) := by
  rw [step_running s hs, hfetch]
  dsimp only
  rw [exec_eq, hops]

/-- A step that suspends a Running machine executed a READ without input and changed nothing but the status
(42_io.md R110). -/
theorem read_of_step_suspended {s t : State} (hs : s.status = .running) (hstep : step s = .next t)
    (ht : t.status = .suspendedForInput) :
    t = s.setStatus .suspendedForInput ∧
      ∃ m, fetchDecode s = .ok (.read m) ∧ operandFault s (.read m) = none ∧ s.input = [] := by
  obtain ⟨m, hfetch, hops, hin⟩ := (haltAndReadAloneStopARunningMachine s t (.inl hs) hstep).2.mp ht
  rw [step_eq_effect hs hfetch hops, effect_read_of_input_eq_nil m hin] at hstep
  cases hstep
  exact ⟨rfl, m, hfetch, hops, hin⟩

/-- A READ with input stores the front (42_io.md R110). -/
theorem effect_read_of_input_eq_cons {s : State} {v : Int} {rest : List Int} (m : Mode) (h : s.input = v :: rest) :
    effect s (.read m) = ((s.setInput rest).memWrite (destination s 0 m) v).advanceIp 2 := by
  simp only [effect, h]

/-- Set Running again, a machine that was suspended is the one before. -/
theorem setStatus_running_of_suspended {s : State} (hs : s.status = .running) :
    (s.setStatus .suspendedForInput).setStatus .running = s :=
  setStatus_eq_self hs

/-- Settles O41: a suspended machine steps as the one before the suspension, whose READ blocks again or stores the
front. -/
theorem suspendedReadIsRetriedNotSkipped : Obligations.SuspendedReadIsRetriedNotSkipped := by
  intro s t m v rest hs hfetch hstep ht
  obtain ⟨rfl, m', hfetch', hops, hin⟩ := read_of_step_suspended hs hstep ht
  obtain rfl : m = m' := by
    cases hfetch.symm.trans hfetch'
    rfl
  refine ⟨rfl, ?_, ?_⟩
  · rwa [step_suspended _ rfl, setStatus_running_of_suspended hs]
  · have hfed : (appendInput s (v :: rest)).input = v :: rest := congrArg (· ++ v :: rest) hin
    have hsame := (carriedAlong_appendInput (v :: rest)).operands s
    calc step (appendInput (s.setStatus .suspendedForInput) (v :: rest))
        = step (appendInput s (v :: rest)) := by
          rw [step_suspended _ rfl, (carriedAlong_appendInput _).setStatus, setStatus_running_of_suspended hs]
      _ = .next (effect (appendInput s (v :: rest)) (.read m)) :=
          step_eq_effect hs ((fetchDecode_congr hsame).trans hfetch) ((operandFault_congr hsame _).trans hops)
      _ = .next { s with mem := s.mem.write (destination s 0 m) v, ip := s.ip + 2, input := rest } := by
          rw [effect_read_of_input_eq_cons m hfed, destination_congr hsame]
          rfl

/-- A run that suspended, then fed and resumed, is the run fed from the start: its steps carry the later input along,
and the READ that suspended has left the machine as it was. -/
theorem RunsTo.fed_from_start {s t u : State} {ws : List Int} (h : RunsTo s t) (hs : s.status = .running)
    (ht : t.status = .suspendedForInput) (hu : RunsTo ((appendInput t ws).setStatus .running) u) :
    RunsTo (appendInput s ws) u := by
  induction h with
  | stop hns => exact absurd hs hns
  | @step s v t _ hstep hrest ih =>
    by_cases hv : v.status = .suspendedForInput
    · obtain rfl : t = v := hrest.eq_of_not_running (by simp [hv])
      obtain ⟨rfl, -⟩ := read_of_step_suspended hs hstep hv
      rwa [(carriedAlong_appendInput ws).setStatus, setStatus_running_of_suspended hs] at hu
    · have hrunning : v.status = .running := by
        by_contra hns
        exact hv (hrest.eq_of_not_running hns ▸ ht)
      exact .step hs (laterInputNeverInfluencesAStep s v ws hstep hv) (ih hrunning ht hu)

/-- Settles O44: the first run call's loop, fed from the start, goes on as the second one's. -/
theorem feedingAfterSuspensionEqualsFeedingUpFront : Obligations.FeedingAfterSuspensionEqualsFeedingUpFront := by
  intro s t u ws n m hfirst ht hsecond
  rcases runCall_cases hfirst with ⟨hnl, rfl⟩ | ⟨hl, hruns⟩
  · exact absurd (.inr ht) hnl
  · rcases runCall_cases hsecond with ⟨hnl, -⟩ | ⟨-, hresumed⟩
    · exact absurd (.inr ht) hnl
    · obtain ⟨k, hk⟩ := (hruns.fed_from_start rfl ht hresumed).exists_steps
      have hfed : live (appendInput s ws) := ((carriedAlong_appendInput ws).live_iff s).mpr hl
      exact ⟨k, (runCall_of_live hfed k).trans ((hk k).mpr le_rfl)⟩

/-- Settles O45: an append is the queue extended, a drain cuts the output in two. -/
theorem hostTouchesOnlyTheQueues : Obligations.HostTouchesOnlyTheQueues :=
  fun s _ n => ⟨rfl, rfl, List.take_append_drop n s.output, rfl⟩

/-- The invariant does not speak of the queues. -/
theorem State.Inv.congr {s s' : State} (h : s.Inv) (hops : SameOperands s s') (hstatus : s'.status = s.status)
    (hfault : s'.fault = s.fault) : s'.Inv where
  memoryCanonical := hops.mem ▸ h.memoryCanonical
  memoryInRange := hops.mem ▸ h.memoryInRange
  faultRecorded := by rw [hstatus, hfault]; exact h.faultRecorded
  faultPrecise := by rw [hfault, hops.ip]; exact h.faultPrecise
  suspendedAtRead := by
    simp only [hstatus, fetchDecode_congr hops, operandFault_congr hops]
    exact h.suspendedAtRead
  haltedAtHalt := by rw [hstatus, fetchDecode_congr hops]; exact h.haltedAtHalt

/-- A run call keeps the invariant, since its entry and every step do (40_pipeline.md R95). -/
theorem State.Inv.runCall {fuel : Nat} {s t : State} (h : s.Inv) (hrun : runCall fuel s = some t) : t.Inv := by
  rcases runCall_cases hrun with ⟨-, rfl⟩ | ⟨hl, hruns⟩
  · exact h
  · exact hruns.keeps everyStepKeepsTheInvariantOfTheMachine (h.setStatus_running hl)

/-- Settles O49: append and drain leave what the invariant speaks of, and a run call keeps it. -/
theorem hostActionsKeepTheInvariantOfTheMachine : Obligations.HostActionsKeepTheInvariantOfTheMachine := by
  intro s t a h hact
  cases a with
  | append ws =>
    cases hact
    exact h.congr ⟨rfl, rfl, rfl⟩ rfl rfl
  | drain n =>
    cases hact
    exact h.congr ⟨rfl, rfl, rfl⟩ rfl rfl
  | run fuel => exact h.runCall hact

end Sys2Proof.Machine
end

section
/-! Arithmetic (41_arithmetic.md R100 to R103): what ADD and MUL store on this hardware, and the results a finite-width
realization cannot hold. -/

namespace Sys2Proof.Machine

/-- An instruction whose operands resolve has its effect (40_pipeline.md R93). -/
theorem exec_eq_effect {s : State} {i : Instr} (hops : operandFault s i = none) : exec i s = .next (effect s i) := by
  rw [exec_eq, hops]

/-- An Immediate destination of the format F4 is WRITE_MODE where the slots before it resolve and the operand words are
addresses (40_pipeline.md R88, R92). -/
theorem exec_immediate_destination {s : State} {i : Instr} {m0 m1 : Mode}
    (hslots : i.slots = [(.read, m0), (.read, m1), (.write, .immediate)]) (h0 : slotFault s 0 .read m0 = none)
    (h1 : slotFault s 1 .read m1 = none) (hip : s.ip + 3 ≤ Config.hw.addrMax) :
    exec i s = .next (faultedAt s (.writeMode 2)) := by
  have h2 : slotFault s 2 .write .immediate = some (.writeMode 2) := slotFault_immediate hip .write
  refine firstOperandFaultIsEnteredBeforeAnyEffect s i _ ?_
  simp only [operandFault, hslots, firstFaultFrom, h0, h1, h2]

/-- Settles O10: ADD's effect is the sum stored, and its Immediate destination the first fault. -/
theorem addStoresTheExactSum : Obligations.AddStoresTheExactSum :=
  fun _ m0 m1 m2 => ⟨(Laws.Canonical.add m0 m1 m2).1, exec_eq_effect, exec_immediate_destination rfl⟩

/-- Settles O11: MUL's effect is the product stored, and its Immediate destination the first fault. -/
theorem mulStoresTheExactProduct : Obligations.MulStoresTheExactProduct :=
  fun _ m0 m1 m2 => ⟨(Laws.Canonical.mul m0 m1 m2).1, exec_eq_effect, exec_immediate_destination rfl⟩

/-- An instruction of the format F4 whose slots resolve stores its result, or enters the fault of computing it
(40_pipeline.md R93, R94). -/
theorem threeOperandOn_of_resolve {c : Config} {s : State} {m0 m1 m2 : Mode} {a b : Int} {d : Nat}
    (h0 : resolveReadOn c s 0 m0 = .ok a) (h1 : resolveReadOn c s 1 m1 = .ok b)
    (h2 : resolveWriteOn c s 2 m2 = .ok d) (result : Int → Int → Except Cause Int) :
    threeOperandOn c result m0 m1 m2 s =
      commit s (result a b >>= fun v => .ok ((s.memWrite d v).advanceIp 4)) := by
  simp only [threeOperandOn, h0, h1, h2, except_bind_ok, except_pure]

/-- Ending with an exact result commits it if the words can hold it, and otherwise is OVERFLOW with nothing committed
(41_arithmetic.md R103, 60_exceptions.md R156). -/
theorem commit_exactResultOn (c : Config) (op : Opcode) (v : Int) (s : State) (store : Int → State) :
    commit s (exactResultOn c op v >>= fun w => .ok (store w)) =
      .next (if fitsOn c v then store v else faultedAt s (.overflow op v)) := by
  by_cases h : fitsOn c v
  · rw [exactResultOn, if_pos h, if_pos h, except_bind_ok, commit_ok]
  · rw [exactResultOn, if_neg h, if_neg h, except_bind_error, commit_error, enterFault_eq_faultedAt]

/-- Settles O54: with the operands resolved, ADD, MUL and ARB end with an exact result. -/
theorem finiteWidthOverflowFaultsAndNeverWraps : Obligations.FiniteWidthOverflowFaultsAndNeverWraps := by
  refine fun c s m0 m1 m2 a b d h0 => ⟨fun h1 h2 => ⟨?_, ?_⟩, ?_⟩
  · exact (threeOperandOn_of_resolve h0 h1 h2 _).trans (commit_exactResultOn c .add (a + b) s _)
  · exact (threeOperandOn_of_resolve h0 h1 h2 _).trans (commit_exactResultOn c .mul (a * b) s _)
  · rw [arbOn, h0]
    exact commit_exactResultOn c .arb (s.rb + a) s fun v => (s.setRb v).advanceIp 2

end Sys2Proof.Machine
end

section
/-! When a step faults (60_exceptions.md R158): by fetch, decode or an operand, or by the one fault an effect enters, a
jump below zero (43_control.md R122). -/

namespace Sys2Proof.Machine

/-- A taken jump to a negative target makes the machine Faulted (43_control.md R122). -/
theorem effect_status_of_jumpsBelowZero {s : State} {i : Instr} (h : jumpsBelowZero s i) :
    (effect s i).status = .faulted := by
  cases i with
  | jnz m0 m1 =>
    obtain ⟨htaken, hneg⟩ := h
    rw [effect_jnz, if_neg htaken, effectOfJump, if_pos hneg, State.enterFault_status]
  | jz m0 m1 =>
    obtain ⟨htaken, hneg⟩ := h
    rw [effect_jz, if_pos htaken, effectOfJump, if_pos hneg, State.enterFault_status]
  | add | mul | read | write | lt | eq | arb | halt => exact h.elim

/-- A taken jump to a negative target is the only effect that makes a Running machine Faulted. -/
theorem effect_status_eq_faulted_iff {s : State} (hs : s.status = .running) (i : Instr) :
    (effect s i).status = .faulted ↔ jumpsBelowZero s i := by
  refine ⟨fun h => ?_, effect_status_of_jumpsBelowZero⟩
  rcases effect_cases s i with ⟨-, heq⟩ | ⟨m, -, -, heq⟩ | ⟨target, hjump, hneg, -⟩ | hgo
  · cases (congrArg State.status heq).symm.trans h
  · cases (congrArg State.status heq).symm.trans h
  · exact hjump.jumpsBelowZero hneg
  · cases hs.symm.trans (hgo.status.symm.trans h)

@[simp] theorem jumpsBelowZero_setStatus (s : State) (v : Status) (i : Instr) :
    jumpsBelowZero (s.setStatus v) i ↔ jumpsBelowZero s i := by
  cases i <;> simp only [jumpsBelowZero, readValue_setStatus]

/-- Settles O23: fetch or decode fails, an operand does, or neither, and then the effect alone can fault, by a jump. -/
theorem stepFaultsExactlyWhenSomeCheckFails : Obligations.StepFaultsExactlyWhenSomeCheckFails := by
  intro s t hl hstep
  rcases step_cases hstep with
    ⟨hnl, -⟩ | ⟨-, f, hfetch, rfl⟩ | ⟨-, i, hfetch, f, hf, rfl⟩ | ⟨-, i, hfetch, hops, rfl⟩
  · exact absurd hl hnl
  · exact iff_of_true rfl (.inl ⟨f, hfetch⟩)
  · exact iff_of_true rfl (.inr ⟨i, hfetch, .inl ⟨f, hf⟩⟩)
  · rw [effect_status_eq_faulted_iff rfl]
    simp [hfetch, hops]

end Sys2Proof.Machine
end

section
/-! Input and output (42_io.md R110 to R112): READ pops the front of the input and stores it, WRITE appends its operand
to the output, and nothing else touches a queue. -/

namespace Sys2Proof.Machine

/-- READ's Immediate destination is WRITE_MODE, whatever the input (40_pipeline.md R88; the spec's decision D11). -/
theorem exec_read_immediate {s : State} (hip : s.ip + 1 ≤ Config.hw.addrMax) :
    exec (.read .immediate) s = .next (faultedAt s (.writeMode 0)) := by
  have h0 : slotFault s 0 .write .immediate = some (.writeMode 0) := slotFault_immediate hip .write
  refine firstOperandFaultIsEnteredBeforeAnyEffect s _ _ ?_
  change firstFaultFrom s 0 [(.write, .immediate)] = some (.writeMode 0)
  rw [firstFaultFrom, h0]

/-- Settles O14: READ's effect is the front stored or the suspension, and its Immediate destination the first fault. -/
theorem readStoresFrontInputOrSuspends : Obligations.ReadStoresFrontInputOrSuspends := by
  refine fun s m0 => ⟨(Laws.Canonical.read m0).1, fun hops v rest hin => ?_, fun hops hin => ?_, exec_read_immediate⟩
  · rw [exec_eq_effect hops, effect_read_of_input_eq_cons m0 hin]
    rfl
  · rw [exec_eq_effect hops, effect_read_of_input_eq_nil m0 hin]
    rfl

/-- Settles O15: WRITE's effect is the operand appended. -/
theorem writeAppendsTheValueToOutput : Obligations.WriteAppendsTheValueToOutput :=
  fun _ m0 => ⟨(Laws.Canonical.write m0).1, exec_eq_effect⟩

/-- An effect leaves the input, or is that of a READ that takes its front and stores it. -/
theorem effect_input_cases (s : State) (i : Instr) :
    (effect s i).input = s.input ∨ ∃ m v, i = .read m ∧ s.input = v :: (effect s i).input ∧
      (effect s i).mem.read (destination s 0 m) = v := by
  by_cases hread : ∃ m, i = .read m
  · obtain ⟨m, rfl⟩ := hread
    cases hin : s.input with
    | nil => exact .inl (by rw [effect_read_of_input_eq_nil m hin, State.setStatus_input, hin])
    | cons v rest => exact .inr ⟨m, v, rfl, by simp [effect_read_of_input_eq_cons m hin]⟩
  · exact .inl (effect_input (not_exists.mp hread))

/-- An effect leaves the output, or is that of a WRITE that appends its operand. -/
theorem effect_output_cases (s : State) (i : Instr) :
    (effect s i).output = s.output ∨
      ∃ m, i = .write m ∧ (effect s i).output = s.output ++ [readValue s 0 m] := by
  by_cases hwrite : ∃ m, i = .write m
  · obtain ⟨m, rfl⟩ := hwrite
    exact .inr ⟨m, rfl, rfl⟩
  · exact .inl (effect_output (not_exists.mp hwrite))

/-- Settles O33: a step that stays or faults keeps both queues, and of the effects READ's alone pops the input and
WRITE's alone appends to the output. -/
theorem queuesAreFifoAndValuesPassUnchanged : Obligations.QueuesAreFifoAndValuesPassUnchanged := by
  intro s t hstep
  rcases step_cases hstep with ⟨-, rfl⟩ | ⟨-, f, -, rfl⟩ | ⟨-, i, -, f, -, rfl⟩ | ⟨-, i, hfetch, -, rfl⟩
  · exact ⟨.inl rfl, .inl rfl⟩
  · exact ⟨.inl rfl, .inl rfl⟩
  · exact ⟨.inl rfl, .inl rfl⟩
  · refine ⟨(effect_input_cases (s.setStatus .running) i).imp_right ?_,
      (effect_output_cases (s.setStatus .running) i).imp_right ?_⟩
    · rintro ⟨m, v, rfl, hpop, hstore⟩
      exact ⟨m, v, hfetch, hpop, hstore⟩
    · rintro ⟨m, rfl, hpush⟩
      exact ⟨m, hfetch, by rwa [readValue_setStatus] at hpush⟩

end Sys2Proof.Machine
end

section
/-! The conditional jumps (43_control.md R120 to R122): JNZ and JZ share what a taken jump leaves. -/

namespace Sys2Proof.Machine

/-- A taken jump to a target that is not negative sets `ip` to exactly the target (R122). -/
theorem effectOfJump_of_nonneg {s : State} {target : Int} (h : 0 ≤ target) :
    effectOfJump s target = { s with ip := target.toNat } :=
  if_neg (not_lt.mpr h)

/-- A taken jump to a negative target enters NEGATIVE_ADDRESS (R122; the spec's decision D9). -/
theorem effectOfJump_of_neg {s : State} {target : Int} (h : target < 0) :
    effectOfJump s target = faultedAt s (.negativeAddress .jumpTarget target) :=
  if_pos h

/-- Settles O16: JNZ's effect is the advance for a = 0, else a taken jump, whose target is negative or not. -/
theorem jnzJumpsIfNotZero : Obligations.JnzJumpsIfNotZero := by
  intro s m0 m1 hops
  rw [exec_eq_effect hops, effect_jnz]
  refine ⟨fun hne hnonneg => ?_, fun hzero => ?_, fun hne hneg => ?_⟩
  · rw [if_neg hne, effectOfJump_of_nonneg hnonneg]
  · rw [if_pos hzero, State.advanceIp]
  · rw [if_neg hne, effectOfJump_of_neg hneg]

/-- Settles O17: JZ's effect is a taken jump for a = 0, whose target is negative or not, else the advance. -/
theorem jzJumpsIfZero : Obligations.JzJumpsIfZero := by
  intro s m0 m1 hops
  rw [exec_eq_effect hops, effect_jz]
  refine ⟨fun hzero hnonneg => ?_, fun hne => ?_, fun hzero hneg => ?_⟩
  · rw [if_pos hzero, effectOfJump_of_nonneg hnonneg]
  · rw [if_neg hne, State.advanceIp]
  · rw [if_pos hzero, effectOfJump_of_neg hneg]

end Sys2Proof.Machine
end

section
/-! Comparisons (44_compare.md R130, R131): LT and EQ store the truth value of a comparison in the integers as a word. -/

namespace Sys2Proof.Machine

/-- Settles O12: LT's effect is the truth value of a < b stored, and its Immediate destination the first fault. -/
theorem ltStoresOneIfLessElseZero : Obligations.LtStoresOneIfLessElseZero :=
  fun _ m0 m1 m2 => ⟨(Laws.Canonical.lt m0 m1 m2).1, exec_eq_effect, exec_immediate_destination rfl⟩

/-- Settles O13: EQ's effect is the truth value of a = b stored, and its Immediate destination the first fault. -/
theorem eqStoresOneIfEqualElseZero : Obligations.EqStoresOneIfEqualElseZero :=
  fun _ m0 m1 m2 => ⟨(Laws.Canonical.eq m0 m1 m2).1, exec_eq_effect, exec_immediate_destination rfl⟩

end Sys2Proof.Machine
end

section
/-! The load line (70_reset_and_hazards.md R181): trimming keeps the commas, a line has one field more than commas, and
an accepted line has one integer per field. -/

namespace Sys2Proof.Machine

/-- Dropping a prefix of characters that satisfy `p` drops no character that does not. -/
theorem count_dropWhile_of_eq_false {p : Char → Bool} {c : Char} (hc : p c = false) (cs : List Char) :
    (cs.dropWhile p).count c = cs.count c := by
  have hprefix : (cs.takeWhile p).count c = 0 :=
    List.count_eq_zero.mpr fun hmem => Bool.false_ne_true (hc ▸ List.mem_takeWhile_imp hmem)
  calc (cs.dropWhile p).count c
      = (cs.takeWhile p ++ cs.dropWhile p).count c := by rw [List.count_append, hprefix, Nat.zero_add]
    _ = cs.count c := by rw [List.takeWhile_append_dropWhile]

/-- The trimmed ends hold whitespace only, so every other character occurs as often as before. -/
theorem count_trimLine {c : Char} (hc : c.isWhitespace = false) (cs : List Char) :
    (trimLine cs).count c = cs.count c := by
  rw [trimLine, List.count_reverse, count_dropWhile_of_eq_false hc, List.count_reverse,
    count_dropWhile_of_eq_false hc]

theorem length_splitCommas (cs : List Char) : (splitCommas cs).length = cs.count ',' + 1 := by
  induction cs with
  | nil => rfl
  | cons c cs ih =>
    rw [splitCommas]
    split
    case isTrue hcomma => rw [hcomma, List.count_cons_self, List.length_cons, ih]
    case isFalse hother =>
      rw [List.count_cons_of_ne hother, ← ih]
      cases hfields : splitCommas cs with
      | nil => rw [hfields] at ih; cases ih
      | cons field fields => rfl

/-- An accepted list of fields gives one integer per field. -/
theorem length_of_intsOf?_eq_some {fields : List (List Char)} {image : List Int}
    (h : intsOf? fields = some image) : image.length = fields.length := by
  induction fields generalizing image with
  | nil => cases h; rfl
  | cons field fields ih =>
    rw [intsOf?] at h
    split at h
    case h_1 v vs _ hvs => cases h; rw [List.length_cons, List.length_cons, ih hvs]
    case h_2 => cases h

/-- Settles O47: one word per field, and one field more than the commas that trimming leaves. -/
theorem loadedImageHasOneWordPerField : Obligations.LoadedImageHasOneWordPerField := by
  intro line image hparse
  calc image.length
      = (splitCommas (trimLine line)).length := length_of_intsOf?_eq_some hparse
    _ = (trimLine line).count ',' + 1 := length_splitCommas _
    _ = line.count ',' + 1 := by rw [count_trimLine rfl]

end Sys2Proof.Machine
end
